-- ==== Sys2Proof/Word.lean ====
section
/-! DEFINITION. The widths of the MHU's values (spec/00_scope.md R6, R7): every value is an unsigned bit vector of a
stated width; bit 0 is the least significant bit. -/

namespace Sys2Proof

/-- One byte of a frame, one beat of input (`BEAT_BITS` = 8, R6). -/
abbrev Byte := BitVec 8

/-- A 16-bit value: a header, an item code, a sequence number, a bit width (`HDR_BITS` = `CODE_BITS` = 16, R6). -/
abbrev Half := BitVec 16

/-- A sample, zero-extended to 32 bits (`SAMPLE_BITS` = 32, R6). -/
abbrev Sample := BitVec 32

/-- The type field of a header (`TYPE_BITS` = 3, R6). -/
abbrev Tag := BitVec 3

/-- The length field of a header (`LEN_BITS` = 13, R6). -/
abbrev Len := BitVec 13

end Sys2Proof
end

