-- ==== Sys2Proof/Config.lean ====
section
/-! DEFINITION. The implementation parameters of spec/00_scope.md R6 that are no table of the encoding (the tables
stand in Decode.lean), and the one parameter the spec leaves open, `OUT_LATENCY`, as an uninterpreted constant. -/

namespace Sys2Proof.Config

/-- `MAX_TOTAL`, the largest expressible total length (R6). -/
def maxTotal : Nat := 8191

/-- `MAX_CTRL_PARAMS` = 8191 - 2 - 2, the largest control-item parameter length (R6). -/
def maxCtrlParams : Nat := 8187

/-- `CFG_RESET`, the reset value of `CFG_BITWIDTH` (R6, R20): an illegal width. -/
def cfgReset : Half := 0x0000

/-- `OUT_LATENCY` (R6, R161; 92_eei_decisions.md D18): cycles from a beat to the cycle in which its records are
presented. OPEN in the spec, so a constant with no body: a claim holds whatever it is (log entry 10). -/
opaque outLatency : Nat

end Sys2Proof.Config
end

