-- ==== Sys2Proof/Syntax.lean ====
section
/-! DEFINITION. The instructions of the MHU: one constructor of `Instr` for each of the 23 rows of
spec/opcode_table.json (30_encoding.md R59), the three enumerations the rows are made of, and `Code`, the encoded form
of an instruction together with the place it stands in. -/

namespace Sys2Proof

/-- The closed enumeration of eight message types, in the source's listing order (30_encoding.md R46). -/
inductive MessageType where
  | setControlItem | currentControlItem | controlItemRange | ack
  | dataItem0 | dataItem1 | dataItem2 | dataItem3
  deriving DecidableEq, Repr

/-- The six known control item codes (30_encoding.md R49). -/
inductive ItemCode where
  | noneItem | receiverState | receiverFrequency | rfFilter | adModes | iqOutputDataSampleRate
  deriving DecidableEq, Repr

/-- The four legal sample bit widths (30_encoding.md R51). -/
inductive Width where
  | w8 | w16 | w24 | w32
  deriving DecidableEq, Repr

/-- An instruction: one constructor for each row of the opcode table.

* The eight `HDR16` rows (R72 to R75, R81 to R84): the operand is the frame, held as the header's 13-bit length
  field and the bytes after the header.
* The six `ITEM16` rows (R49): the operand is the parameter bytes after the item code.
* The four `BITWIDTH16` rows (R92 to R95): the operand is the body.
* The five `CTL3` rows (R56): the operands are the data pins the event reads. -/
inductive Instr where
  | setControlItem (length : Len) (payload : List Byte)
  | currentControlItem (length : Len) (payload : List Byte)
  | controlItemRange (length : Len) (payload : List Byte)
  | ack (length : Len) (payload : List Byte)
  | dataItem0 (length : Len) (payload : List Byte)
  | dataItem1 (length : Len) (payload : List Byte)
  | dataItem2 (length : Len) (payload : List Byte)
  | dataItem3 (length : Len) (payload : List Byte)
  | noneItem (parameters : List Byte)
  | receiverState (parameters : List Byte)
  | receiverFrequency (parameters : List Byte)
  | rfFilter (parameters : List Byte)
  | adModes (parameters : List Byte)
  | iqOutputDataSampleRate (parameters : List Byte)
  | width8 (body : List Byte)
  | width16 (body : List Byte)
  | width24 (body : List Byte)
  | width32 (body : List Byte)
  | reset
  | cfgWrite (v : Half)
  | beat (d : Byte) (last : Bool)
  | beatCfg (d : Byte) (last : Bool) (v : Half)
  | idle
  deriving DecidableEq, Repr

/-- The input pins sampled at one rising edge of `clk` (44_frame_engine.md R115): `ctl` is the concatenation
`rst : cfg_we : in_valid` of 30_encoding.md R56. -/
structure Pins where
  ctl : BitVec 3
  inData : Byte
  inLast : Bool
  cfgWdata : Half
  deriving DecidableEq, Repr

/-- An encoded instruction with its place, since the place and not the word decides the format (R59): a frame from
its first byte (`HDR16`), the rest of a control-class frame from offset 2 (`ITEM16`), the value of `BW` with the rest
of a data-class frame from a byte of its body (`BITWIDTH16`), or the pins of one clock cycle (`CTL3`). -/
inductive Code where
  | frame (bytes : List Byte)
  | item (bytes : List Byte)
  | body (bw : Half) (bytes : List Byte)
  | pins (p : Pins)
  deriving DecidableEq, Repr

/-- Why a `Code` is no instruction. -/
inductive Reject where
  /-- Fewer than two bytes: no header (30_encoding.md R45). -/
  | noHeader
  /-- Fewer than two bytes from offset 2: no item code (30_encoding.md R48). -/
  | noItemCode
  /-- No `ITEM16` row matches: the condition `INVALID_CODE` (60_exceptions.md R132). -/
  | unknownItemCode (c : Half)
  /-- No `BITWIDTH16` row matches: the condition `SampleSizeOutOfRange` (60_exceptions.md R133). -/
  | illegalWidth (w : Half)
  /-- No byte of a body is offered: a beat is at least one byte (20_memory.md R30). -/
  | emptyBody
  deriving DecidableEq, Repr

end Sys2Proof
end

