-- ==== Sys2Proof/WellFormed.lean ====
section
/-! DEFINITION. Which instructions can be presented to the engine. The spec makes every length, payload, parameter
list and pin value legal (30_encoding.md R54); the one check is that a body instruction offers at least one byte,
because what is presented to the engine is a sequence of at least one beat (20_memory.md R30, 60_exceptions.md R131;
log entry 18). -/

namespace Sys2Proof

/-- The instruction can be presented to the engine. -/
def Instr.wellFormed : Instr → Bool
  | .setControlItem _ _ => true
  | .currentControlItem _ _ => true
  | .controlItemRange _ _ => true
  | .ack _ _ => true
  | .dataItem0 _ _ => true
  | .dataItem1 _ _ => true
  | .dataItem2 _ _ => true
  | .dataItem3 _ _ => true
  | .noneItem _ => true
  | .receiverState _ => true
  | .receiverFrequency _ => true
  | .rfFilter _ => true
  | .adModes _ => true
  | .iqOutputDataSampleRate _ => true
  | .width8 body => !body.isEmpty
  | .width16 body => !body.isEmpty
  | .width24 body => !body.isEmpty
  | .width32 body => !body.isEmpty
  | .reset => true
  | .cfgWrite _ => true
  | .beat _ _ => true
  | .beatCfg _ _ _ => true
  | .idle => true

end Sys2Proof
end

