-- ==== Sys2Proof/Machine/Operands.lean ====
section
/-! DEFINITION. How fields are assembled from bytes (30_encoding.md R52, 00_scope.md R7) and the header codec
`UNPACK` / `PACK` (40_header_codec.md R65, R66). Everything is little-endian (20_memory.md R32) and unsigned. -/

namespace Sys2Proof.Machine

/-- `LE16(b0, b1)` (R7): the byte at the lower offset holds the less significant bits. -/
def le16 (b0 b1 : Byte) : Half := b1 ++ b0

/-- Bits 7 to 0 of a 16-bit value. -/
def lowByte (v : Half) : Byte := v.extractLsb' 0 8

/-- Bits 15 to 8 of a 16-bit value. -/
def highByte (v : Half) : Byte := v.extractLsb' 8 8

/-- `LE16bytes(v)` (R7): the inverse of `le16`, a two-byte list. -/
def le16Bytes (v : Half) : List Byte := [lowByte v, highByte v]

/-- `LE(b, k)` with `k` the list's length (R7): the sum of `b[j] << 8j`. -/
def le : List Byte → Nat
  | [] => 0
  | b :: bs => b.toNat + 256 * le bs

/-- `MemRead(off, n)` over a frame (R7): defined only when `off + n` is at most the frame's length. -/
def memRead (frame : List Byte) (off n : Nat) : Option Nat :=
  if off + n ≤ frame.length then some (le ((frame.drop off).take n)) else none

/-- The type field `h[15:13]` of a header (R45, R65). -/
def typeOf (h : Half) : Tag := h.extractLsb' 13 3

/-- The length field `h[12:0]` of a header (R45, R65). -/
def lengthOf (h : Half) : Len := h.extractLsb' 0 13

/-- `UNPACK(h)` (R65): total over all 16-bit values. -/
def unpack (h : Half) : Tag × Len := (typeOf h, lengthOf h)

/-- `PACK(type, totalLength)` (R66). Its precondition, a total length of 0 to 8191, is the argument's type
(93_implementation_defined.md U3; log entry 15). -/
def pack (t : Tag) (len : Len) : Half := t ++ len

end Sys2Proof.Machine
end

