-- ==== Sys2Proof/Decode.lean ====
section
/-! DEFINITION. The encoding tables of 30_encoding.md (R46, R49, R51, R56), the decoder, total on every `Code` and
rejecting by name, and after it the encoder, written from the same tables. -/

namespace Sys2Proof

open Sys2Proof.Machine

/-! ### The tables, in both directions -/

/-- The numeric tag of a message type (R46). -/
def MessageType.tag : MessageType → Tag
  | .setControlItem => 0
  | .currentControlItem => 1
  | .controlItemRange => 2
  | .ack => 3
  | .dataItem0 => 4
  | .dataItem1 => 5
  | .dataItem2 => 6
  | .dataItem3 => 7

/-- The message type of a tag (R46): all eight tags are defined. -/
def MessageType.ofTag (t : Tag) : MessageType :=
  if t = 0 then .setControlItem
  else if t = 1 then .currentControlItem
  else if t = 2 then .controlItemRange
  else if t = 3 then .ack
  else if t = 4 then .dataItem0
  else if t = 5 then .dataItem1
  else if t = 6 then .dataItem2
  else .dataItem3

/-- The 16-bit value of a known item code (R49). -/
def ItemCode.value : ItemCode → Half
  | .noneItem => 0x0000
  | .receiverState => 0x0018
  | .receiverFrequency => 0x0020
  | .rfFilter => 0x0044
  | .adModes => 0x008A
  | .iqOutputDataSampleRate => 0x00B8

/-- The item code with a given value, all 16 bits compared (R49); any other value is unknown. -/
def ItemCode.ofValue (c : Half) : Option ItemCode :=
  if c = 0x0000 then some .noneItem
  else if c = 0x0018 then some .receiverState
  else if c = 0x0020 then some .receiverFrequency
  else if c = 0x0044 then some .rfFilter
  else if c = 0x008A then some .adModes
  else if c = 0x00B8 then some .iqOutputDataSampleRate
  else none

/-- The value of a legal width in `CFG_BITWIDTH` (R51). -/
def Width.value : Width → Half
  | .w8 => 0x0008
  | .w16 => 0x0010
  | .w24 => 0x0018
  | .w32 => 0x0020

/-- The legal width with a given value (R51); any other value is illegal (R54). -/
def Width.ofValue (w : Half) : Option Width :=
  if w = 0x0008 then some .w8
  else if w = 0x0010 then some .w16
  else if w = 0x0018 then some .w24
  else if w = 0x0020 then some .w32
  else none

/-! ### The decoder -/

/-- The `HDR16` row of a header, with the bytes after it (R46, R59): every header has one. -/
def decodeHeader (h : Half) (payload : List Byte) : Instr :=
  match MessageType.ofTag (typeOf h) with
  | .setControlItem => .setControlItem (lengthOf h) payload
  | .currentControlItem => .currentControlItem (lengthOf h) payload
  | .controlItemRange => .controlItemRange (lengthOf h) payload
  | .ack => .ack (lengthOf h) payload
  | .dataItem0 => .dataItem0 (lengthOf h) payload
  | .dataItem1 => .dataItem1 (lengthOf h) payload
  | .dataItem2 => .dataItem2 (lengthOf h) payload
  | .dataItem3 => .dataItem3 (lengthOf h) payload

/-- The `ITEM16` row of an item code, with the parameters after it (R49, R59). -/
def decodeItem (c : Half) (parameters : List Byte) : Except Reject Instr :=
  match ItemCode.ofValue c with
  | some .noneItem => .ok (.noneItem parameters)
  | some .receiverState => .ok (.receiverState parameters)
  | some .receiverFrequency => .ok (.receiverFrequency parameters)
  | some .rfFilter => .ok (.rfFilter parameters)
  | some .adModes => .ok (.adModes parameters)
  | some .iqOutputDataSampleRate => .ok (.iqOutputDataSampleRate parameters)
  | none => .error (.unknownItemCode c)

/-- The `BITWIDTH16` row of a width, with the body it is applied to (R51, R59). -/
def decodeWidth (w : Half) (body : List Byte) : Except Reject Instr :=
  match Width.ofValue w with
  | some .w8 => .ok (.width8 body)
  | some .w16 => .ok (.width16 body)
  | some .w24 => .ok (.width24 body)
  | some .w32 => .ok (.width32 body)
  | none => .error (.illegalWidth w)

/-- The `CTL3` row of the pins of one clock cycle (R56): the five rows cover all eight values of `ctl`, and a data
pin whose control input is 0 is ignored. -/
def decodePins (p : Pins) : Instr :=
  if p.ctl &&& 0x4 = 0x4 then .reset
  else if p.ctl &&& 0x7 = 0x2 then .cfgWrite p.cfgWdata
  else if p.ctl &&& 0x7 = 0x1 then .beat p.inData p.inLast
  else if p.ctl &&& 0x7 = 0x3 then .beatCfg p.inData p.inLast p.cfgWdata
  else .idle

/-- The decoder, total on every `Code`. -/
def decode : Code → Except Reject Instr
  | .frame (b0 :: b1 :: payload) => .ok (decodeHeader (le16 b0 b1) payload)
  | .frame _ => .error .noHeader
  | .item (b2 :: b3 :: parameters) => decodeItem (le16 b2 b3) parameters
  | .item _ => .error .noItemCode
  | .body bw (b :: bs) => decodeWidth bw (b :: bs)
  | .body _ [] => .error .emptyBody
  | .pins p => .ok (decodePins p)

/-! ### The encoder -/

/-- A frame of a message type: header `length | (type << 13)`, little-endian, then the payload (R45, R46). -/
def messageBytes (m : MessageType) (len : Len) (payload : List Byte) : List Byte :=
  le16Bytes (pack m.tag len) ++ payload

/-- An item code, little-endian, then its parameters (R48, R49). -/
def itemBytes (c : ItemCode) (parameters : List Byte) : List Byte := le16Bytes c.value ++ parameters

/-- The encoder: the bytes or pins of an instruction, with its place. -/
def encode : Instr → Code
  | .setControlItem len payload => .frame (messageBytes .setControlItem len payload)
  | .currentControlItem len payload => .frame (messageBytes .currentControlItem len payload)
  | .controlItemRange len payload => .frame (messageBytes .controlItemRange len payload)
  | .ack len payload => .frame (messageBytes .ack len payload)
  | .dataItem0 len payload => .frame (messageBytes .dataItem0 len payload)
  | .dataItem1 len payload => .frame (messageBytes .dataItem1 len payload)
  | .dataItem2 len payload => .frame (messageBytes .dataItem2 len payload)
  | .dataItem3 len payload => .frame (messageBytes .dataItem3 len payload)
  | .noneItem ps => .item (itemBytes .noneItem ps)
  | .receiverState ps => .item (itemBytes .receiverState ps)
  | .receiverFrequency ps => .item (itemBytes .receiverFrequency ps)
  | .rfFilter ps => .item (itemBytes .rfFilter ps)
  | .adModes ps => .item (itemBytes .adModes ps)
  | .iqOutputDataSampleRate ps => .item (itemBytes .iqOutputDataSampleRate ps)
  | .width8 body => .body Width.w8.value body
  | .width16 body => .body Width.w16.value body
  | .width24 body => .body Width.w24.value body
  | .width32 body => .body Width.w32.value body
  | .reset => .pins { ctl := 0b100, inData := 0, inLast := false, cfgWdata := 0 }
  | .cfgWrite v => .pins { ctl := 0b010, inData := 0, inLast := false, cfgWdata := v }
  | .beat d last => .pins { ctl := 0b001, inData := d, inLast := last, cfgWdata := 0 }
  | .beatCfg d last v => .pins { ctl := 0b011, inData := d, inLast := last, cfgWdata := v }
  | .idle => .pins { ctl := 0b000, inData := 0, inLast := false, cfgWdata := 0 }

/-! ### The opcode table's rows as numbers -/

/-- The `match` of an instruction's opcode-table row (R59). -/
def Instr.rowMatch : Instr → Nat
  | .setControlItem _ _ => 0x0000
  | .currentControlItem _ _ => 0x2000
  | .controlItemRange _ _ => 0x4000
  | .ack _ _ => 0x6000
  | .dataItem0 _ _ => 0x8000
  | .dataItem1 _ _ => 0xA000
  | .dataItem2 _ _ => 0xC000
  | .dataItem3 _ _ => 0xE000
  | .noneItem _ => 0x0000
  | .receiverState _ => 0x0018
  | .receiverFrequency _ => 0x0020
  | .rfFilter _ => 0x0044
  | .adModes _ => 0x008A
  | .iqOutputDataSampleRate _ => 0x00B8
  | .width8 _ => 0x0008
  | .width16 _ => 0x0010
  | .width24 _ => 0x0018
  | .width32 _ => 0x0020
  | .reset => 0x4
  | .cfgWrite _ => 0x2
  | .beat _ _ => 0x1
  | .beatCfg _ _ _ => 0x3
  | .idle => 0x0

/-- The `mask` of an instruction's opcode-table row (R59): it depends on the row's format, but for `RESET`. -/
def Instr.rowMask : Instr → Nat
  | .setControlItem _ _ | .currentControlItem _ _ | .controlItemRange _ _ | .ack _ _ => 0xE000
  | .dataItem0 _ _ | .dataItem1 _ _ | .dataItem2 _ _ | .dataItem3 _ _ => 0xE000
  | .noneItem _ | .receiverState _ | .receiverFrequency _ => 0xFFFF
  | .rfFilter _ | .adModes _ | .iqOutputDataSampleRate _ => 0xFFFF
  | .width8 _ | .width16 _ | .width24 _ | .width32 _ => 0xFFFF
  | .reset => 0x4
  | .cfgWrite _ | .beat _ _ | .beatCfg _ _ _ | .idle => 0x7

/-- The word of a `Code` that its opcode-table row matches: the header, the item code, the width, the control
inputs (R59). A list too short for its word gives none. -/
def Code.tableWord : Code → Option Nat
  | .frame (b0 :: b1 :: _) => some (le16 b0 b1).toNat
  | .item (b2 :: b3 :: _) => some (le16 b2 b3).toNat
  | .body bw _ => some bw.toNat
  | .pins p => some p.ctl.toNat
  | _ => none

/-- The `Code` that stands for a bare word of the table, every operand bit and byte zero and every list as short as
an instruction allows. Three words belong to two rows of different formats, and the table's number does not say the
place: a word of 16 bits is read as an item code if it is one, else as a width if it is a legal one, else as a
header (DESIGN CHOICE, log entry 6). -/
def tableCode (nbits w : Nat) : Option Code :=
  if nbits ≤ 8 then
    some (.pins { ctl := BitVec.ofNat 3 w, inData := 0, inLast := false, cfgWdata := 0 })
  else if nbits = 16 ∧ w < 65536 then
    let v := BitVec.ofNat 16 w
    if (ItemCode.ofValue v).isSome then some (.item (le16Bytes v))
    else if (Width.ofValue v).isSome then some (.body v [0])
    else some (.frame (le16Bytes v))
  else none

/-- The instruction the decoder reads from a bare word of the table (log entry 6). -/
def decodeTableWord (nbits w : Nat) : Option Instr :=
  match tableCode nbits w with
  | some c => (decode c).toOption
  | none => none

end Sys2Proof
end

