-- ==== Sys2Proof/Machine/Flags.lean ====
section
/-! DEFINITION. The derived predicates from which the three flags `SSE`, `CODE_OK`, `SEQP` are computed
(10_state.md R18, R19). The MHU has no arithmetic condition codes. -/

namespace Sys2Proof.Machine

/-- `is_data(h) = h[15]`, the top bit of the type field (R19, R47). -/
def isData (h : Half) : Bool := h.getLsbD 15

/-- `bw_ok(w)`: a legal sample bit width (R19). -/
def bwOk (w : Half) : Bool := w == 8 || w == 16 || w == 24 || w == 32

/-- `gbytes(w) = w[5:3]`, the group size in bytes; meaningful when `bwOk w` (R19). -/
def gbytes (w : Half) : BitVec 3 := w.extractLsb' 3 3

/-- `known_code(c)`: true exactly for the six known codes, all 16 bits compared (R19, R49). -/
def knownCode (c : Half) : Bool :=
  c == 0x0000 || c == 0x0018 || c == 0x0020 || c == 0x0044 || c == 0x008A || c == 0x00B8

/-- `SampleSizeOutOfRange` for a frame with header `h` and latched width `bw`: data class and an illegal width
(R18, R91, R105). -/
def sampleSizeError (h bw : Half) : Bool := isData h && !bwOk bw

end Sys2Proof.Machine
end

