-- ==== Sys2Proof/Machine/State.lean ====
section
/-! DEFINITION. The state of one MHU instance: the ten registers of 10_state.md R10, and the two lists that stand for
its environment (log entries 1 and 2). It has no memory (20_memory.md R30, R31; log entry 14). -/

namespace Sys2Proof.Machine

/-- `PHASE`, the position of the next byte in the frame (R17): 0 = `P_HDR0`, 1 = `P_HDR1`, 2 = `P_AUX0`,
3 = `P_AUX1`, 4 = `P_BODY`. Five values: 5, 6 and 7 are unrepresentable, as R116 asks (log entry 8). -/
inductive Phase where
  | hdr0 | hdr1 | aux0 | aux1 | body
  deriving DecidableEq, Repr

/-- `Done.status` (60_exceptions.md R135); the code 3 is never produced and unrepresentable (log entry 17). -/
inductive Status where
  | ok | invalidShort | invalidCode
  deriving DecidableEq, Repr

/-- The fields of a `Done` record (30_encoding.md R57). -/
structure DoneRecord where
  status : Status
  isData : Bool
  type : Tag
  length : Len
  item : Half
  seq : Half
  seqPresent : Bool
  sse : Bool
  deriving DecidableEq, Repr

/-- An output record (30_encoding.md R57). -/
inductive Record where
  | hdr (type : Tag) (length : Len) (isData : Bool)
  | aux (isSeq : Bool) (value : Half) (known : Bool)
  | sse
  | body (data : Byte)
  | smp (data : Sample)
  | done (verdict : DoneRecord)
  deriving DecidableEq, Repr

/-- What the environment offers next: the pins of one clock cycle (44_frame_engine.md R115), or one `frame` line of
30_encoding.md R58, at least one byte, presented one beat for each byte with no other event between them and with
`last` = 1 on the final byte. -/
inductive Stimulus where
  | cycle (p : Pins)
  | frame (first : Byte) (rest : List Byte)
  deriving DecidableEq, Repr

/-- The state. `input` and `outputs` are the model's own fields: what the environment has still to offer, and one
list of records for each clock cycle so far, the oldest first. -/
structure State where
  cfgBitwidth : Half
  hdr : Half
  aux : Half
  bw : Half
  acc : BitVec 32
  gidx : BitVec 2
  phase : Phase
  sse : Bool
  codeOk : Bool
  seqp : Bool
  input : List Stimulus
  outputs : List (List Record)
  deriving DecidableEq, Repr

/-- A fault would stop the machine. The spec gives the MHU none: all three of its conditions are reported as data
and none stops the engine (00_scope.md R8 (5), 60_exceptions.md R137, R138). So this type has no constructor, which
is safe: no step can end in a fault (log entry 16). -/
inductive Fault where
  deriving DecidableEq, Repr

/-- Why a step gives no meaning. -/
inductive Refusal where
  /-- The instruction has no meaning in this model yet. Raised only by an arm of `exec` that rejects by name; no arm
  does. Safe: the machine stops where the hardware goes on. -/
  | notModelled (mnemonic : String)
  deriving DecidableEq, Repr

/-- The machine right after `Reset` (10_state.md R20, 70_reset_and_hazards.md R150): every register zero. Nothing is
offered yet and nothing has been emitted (log entries 1 and 2). -/
def State.reset : State where
  cfgBitwidth := Config.cfgReset
  hdr := 0x0000
  aux := 0x0000
  bw := 0x0000
  acc := 0x00000000
  gidx := 0
  phase := .hdr0
  sse := false
  codeOk := false
  seqp := false
  input := []
  outputs := []

end Sys2Proof.Machine
end

