-- ==== Sys2Proof/Machine/Ops.lean ====
section
/-! DEFINITION. The named operations over the registers and the outputs: each register write of the beat rules, the
emission of one cycle's records, the building of the `Done` record (44_frame_engine.md R110) and the end of a frame.
Reporting a condition (60_exceptions.md R137) is `doneInvalid` or `finishFull` with `State.endFrame`: it saves
nothing, changes no mode and transfers control nowhere, and nothing has to be done to return from it (R138). -/

namespace Sys2Proof.Machine

/-- The 3-bit encoding of `PHASE` (R17). -/
def Phase.number : Phase → BitVec 3
  | .hdr0 => 0
  | .hdr1 => 1
  | .aux0 => 2
  | .aux1 => 3
  | .body => 4

/-! ### Writes of the registers -/

/-- `CFG_BITWIDTH <- v`, any value (R11, R102). -/
def State.writeCfg (v : Half) (s : State) : State := { s with cfgBitwidth := v }

/-- The register writes of a frame's first beat (R104): the header's low byte, the width latched from
`CFG_BITWIDTH`, the group and the three flags cleared. `HDR[15:8]` keeps its old value. -/
def State.startFrame (d : Byte) (s : State) : State :=
  { s with
    hdr := le16 d (highByte s.hdr)
    bw := s.cfgBitwidth
    acc := 0
    gidx := 0
    sse := false
    codeOk := false
    seqp := false }

/-- `HDR[15:8] <- d` (R105). -/
def State.writeHdrHigh (d : Byte) (s : State) : State := { s with hdr := le16 (lowByte s.hdr) d }

/-- `SSE <- 1` when `bad` (R105): no beat rule writes 0 here. -/
def State.raiseSse (bad : Bool) (s : State) : State := { s with sse := s.sse || bad }

/-- `AUX[7:0] <- d`; `AUX[15:8]` keeps its old value (R106). -/
def State.writeAuxLow (d : Byte) (s : State) : State := { s with aux := le16 d (highByte s.aux) }

/-- `AUX[15:8] <- d` (R107). -/
def State.writeAuxHigh (d : Byte) (s : State) : State := { s with aux := le16 (lowByte s.aux) d }

/-- `SEQP <- 1` (R107). -/
def State.setSeqp (s : State) : State := { s with seqp := true }

/-- `CODE_OK <- ok` (R107). -/
def State.writeCodeOk (ok : Bool) (s : State) : State := { s with codeOk := ok }

/-- `ACC <- a; GIDX <- i` (R109). -/
def State.writeGroup (a : BitVec 32) (i : BitVec 2) (s : State) : State := { s with acc := a, gidx := i }

/-- `PHASE <- p`. -/
def State.writePhase (p : Phase) (s : State) : State := { s with phase := p }

/-- Every register to its reset value (R150). The environment's lists are no registers: what was emitted is not
retracted (R151). -/
def State.clearRegisters (s : State) : State :=
  { State.reset with input := s.input, outputs := s.outputs }

/-! ### Outputs -/

/-- The records of one clock cycle, in their order (R100, R114). -/
def State.emit (rs : List Record) (s : State) : State := { s with outputs := s.outputs ++ [rs] }

/-- A beat with `last` = 0: its records, and the position of the next byte (R17). -/
def State.advance (p : Phase) (rs : List Record) (s : State) : State := (s.emit rs).writePhase p

/-- A beat with `last` = 1: exactly one `Done`, its last record, and `PHASE <- 0` (R103). -/
def State.endFrame (rs : List Record) (done : DoneRecord) (s : State) : State :=
  (s.emit (rs ++ [.done done])).writePhase .hdr0

/-! ### The `Done` record -/

/-- The `Done` record of an invalid frame: all fields but the status zero (R110, R131, R132). -/
def doneInvalid (st : Status) : DoneRecord where
  status := st
  isData := false
  type := 0
  length := 0
  item := 0
  seq := 0
  seqPresent := false
  sse := false

/-- `finish_full(a, seqp, code_ok)` for the header `h` and the value `sse` of `SSE` after the beat (R110). A data
frame is valid once its class is known; a control frame is valid when its code is known. `finish(OK)` is this with
`seqp` = 0. -/
def finishFull (h a : Half) (seqp codeOk sse : Bool) : DoneRecord :=
  if isData h then
    { status := .ok, isData := true, type := (unpack h).1, length := (unpack h).2, item := 0x0000
      seq := if seqp then a else 0x0000, seqPresent := seqp, sse := sse }
  else if codeOk then
    { status := .ok, isData := false, type := (unpack h).1, length := (unpack h).2, item := a
      seq := 0x0000, seqPresent := false, sse := false }
  else doneInvalid .invalidCode

/-- The verdict on a frame that ends at its second or third byte (R105, R106): valid without a sequence number for
the data class, too short for the control class. -/
def finishEarly (h : Half) (sse : Bool) : DoneRecord :=
  if isData h then finishFull h 0x0000 false false sse else doneInvalid .invalidShort

end Sys2Proof.Machine
end

