-- ==== Sys2Proof/Machine/Engine.lean ====
section
/-! DEFINITION. The frame engine: the five beat rules (44_frame_engine.md R104 to R108), the deserializer step (R109),
the dispatch on `PHASE` (R103), and the presentation of a row of bytes as beats (30_encoding.md R58). -/

namespace Sys2Proof.Machine

/-- `Beat(d, last)` at `PHASE` = 0: the header's low byte, start of a frame (R104). -/
def beatHdr0 (d : Byte) (last : Bool) (s : State) : State :=
  let s1 := s.startFrame d
  if last then s1.endFrame [] (doneInvalid .invalidShort) else s1.advance .hdr1 []

/-- `Beat(d, last)` at `PHASE` = 1: the header's high byte, the type/length demultiplexer (R105). -/
def beatHdr1 (d : Byte) (last : Bool) (s : State) : State :=
  let h := le16 (lowByte s.hdr) d
  let bad := sampleSizeError h s.bw
  let s1 := (s.writeHdrHigh d).raiseSse bad
  let rs := Record.hdr (unpack h).1 (unpack h).2 (isData h) :: if bad then [Record.sse] else []
  if last then s1.endFrame rs (finishEarly h s1.sse) else s1.advance .aux0 rs

/-- `Beat(d, last)` at `PHASE` = 2: the low byte of the item code or sequence number (R106). -/
def beatAux0 (d : Byte) (last : Bool) (s : State) : State :=
  let s1 := s.writeAuxLow d
  if last then s1.endFrame [] (finishEarly s.hdr s.sse) else s1.advance .aux1 []

/-- `Beat(d, last)` at `PHASE` = 3: the high byte of the item code or sequence number (R107). -/
def beatAux1 (d : Byte) (last : Bool) (s : State) : State :=
  let a := le16 (lowByte s.aux) d
  let s1 := s.writeAuxHigh d
  let s2 := if isData s.hdr then s1.setSeqp else s1.writeCodeOk (knownCode a)
  let rs := if isData s.hdr then [Record.aux true a true] else [Record.aux false a (knownCode a)]
  if last then s2.endFrame rs (finishFull s.hdr a s2.seqp s2.codeOk s.sse) else s2.advance .body rs

/-- `deser(d)` with the group size `g` (R109): the sample, if the byte completes a group, and the new group. -/
def deser (g : BitVec 3) (d : Byte) (acc : BitVec 32) (gidx : BitVec 2) : Option Sample × BitVec 32 × BitVec 2 :=
  let a := acc ||| (d.setWidth 32 <<< (8 * gidx.toNat))
  if gidx.setWidth 3 + 1 = g then (some a, 0, 0) else (none, a, gidx + 1)

/-- The writes and records of a body byte, before the end of the beat (R108): the body of a data frame always, and of
a control frame only if its code is known; samples only from a data frame with `SSE` = 0. -/
def bodyByte (g : BitVec 3) (d : Byte) (s : State) : State × List Record :=
  if isData s.hdr then
    if s.sse then (s, [.body d])
    else
      match deser g d s.acc s.gidx with
      | (some a, acc, gidx) => (s.writeGroup acc gidx, [.body d, .smp a])
      | (none, acc, gidx) => (s.writeGroup acc gidx, [.body d])
  else if s.codeOk then (s, [.body d])
  else (s, [])

/-- `Beat(d, last)` at `PHASE` = 4: a body byte (R108), with the group size `g`. -/
def beatBody (g : BitVec 3) (d : Byte) (last : Bool) (s : State) : State :=
  let r := bodyByte g d s
  if last then r.1.endFrame r.2 (finishFull s.hdr s.aux s.seqp s.codeOk s.sse) else r.1.advance .body r.2

/-- `Beat(d, last)` with the group size `g`: the dispatch on `PHASE` (R103). -/
def beatWith (g : BitVec 3) (d : Byte) (last : Bool) (s : State) : State :=
  match s.phase with
  | .hdr0 => beatHdr0 d last s
  | .hdr1 => beatHdr1 d last s
  | .aux0 => beatAux0 d last s
  | .aux1 => beatAux1 d last s
  | .body => beatBody g d last s

/-- `Beat(d, last)` (R103): the group size is `gbytes(BW)` (R109). -/
def beat (d : Byte) (last : Bool) (s : State) : State := beatWith (gbytes s.bw) d last s

/-- A row of bytes presented as beats, in order, the final one with `last` = 1 (R58). No byte, no beat. -/
def present : List Byte → State → State
  | [], s => s
  | b :: bs, s => present bs (beat b bs.isEmpty s)

/-- A row of bytes presented as beats with the group size given by a `BITWIDTH16` row instead of read from `BW`
(R92 to R95). -/
def presentWith (g : BitVec 3) : List Byte → State → State
  | [], s => s
  | b :: bs, s => presentWith g bs (beatWith g b bs.isEmpty s)

end Sys2Proof.Machine
end

