-- ==== Sys2Proof/Machine/HeaderCodec.lean ====
section
/-! DEFINITION. The conditions and results of the function layer (00_scope.md R5, 60_exceptions.md R130): every
operation below and in ControlItem, DataItem, SampleExtractor is a pure, total function over byte lists. -/

namespace Sys2Proof.Machine

/-- The two causes of `InvalidFrame` (41_control_item.md R70). -/
inductive Cause where
  | tooShort | unknownCode
  deriving DecidableEq, Repr

/-- The three conditions of the source's taxonomy (60_exceptions.md R130). -/
inductive Condition where
  | invalidFrame (cause : Cause)
  | sampleSizeOutOfRange
  | lengthExceeded
  deriving DecidableEq, Repr

/-- The `status` code that reports the verdict (60_exceptions.md R135). -/
def Status.code : Status → BitVec 2
  | .ok => 0
  | .invalidShort => 1
  | .invalidCode => 2

/-- The status by which the engine reports an invalid frame (R131, R132). -/
def Cause.status : Cause → Status
  | .tooShort => .invalidShort
  | .unknownCode => .invalidCode

end Sys2Proof.Machine
end

