-- ==== Sys2Proof/Machine/ControlItem.lean ====
section
/-! DEFINITION. Control-item frames (41_control_item.md): `PARSE_CONTROL`, the reference function `BUILD_CONTROL`,
and the meanings of the four control message types and of the six item codes. -/

namespace Sys2Proof.Machine

/-- What `PARSE_CONTROL` gives on success (R70). -/
structure ControlFrame where
  type : Tag
  item : Half
  seq : Half
  body : List Byte
  deriving DecidableEq, Repr

/-- `PARSE_CONTROL(b)` (R70): the length check comes first; the class of the type is not looked at (R78). -/
def parseControl : List Byte → Except Condition ControlFrame
  | b0 :: b1 :: b2 :: b3 :: body =>
    if knownCode (le16 b2 b3) then
      .ok { type := (unpack (le16 b0 b1)).1, item := le16 b2 b3, seq := 0x0000, body := body }
    else .error (.invalidFrame .unknownCode)
  | _ => .error (.invalidFrame .tooShort)

/-- `BUILD_CONTROL(type, itemCode, parameters)` (R76): fails only above 8187 parameter bytes. -/
def buildControl (t : Tag) (itemCode : Half) (parameters : List Byte) : Except Condition (List Byte) :=
  if parameters.length > Config.maxCtrlParams then .error .lengthExceeded
  else .ok (le16Bytes (pack t (BitVec.ofNat 13 (4 + parameters.length))) ++ le16Bytes itemCode ++ parameters)

/-! ### The four control message types: the frame's bytes are presented (R72 to R75, R58) -/

/-- `SET_CONTROL_ITEM` (R72). -/
def execSetControlItem (len : Len) (payload : List Byte) (s : State) : Host.Outcome State Fault Refusal :=
  .next (present (messageBytes .setControlItem len payload) s)

/-- `CURRENT_CONTROL_ITEM` (R73). -/
def execCurrentControlItem (len : Len) (payload : List Byte) (s : State) : Host.Outcome State Fault Refusal :=
  .next (present (messageBytes .currentControlItem len payload) s)

/-- `CONTROL_ITEM_RANGE` (R74). -/
def execControlItemRange (len : Len) (payload : List Byte) (s : State) : Host.Outcome State Fault Refusal :=
  .next (present (messageBytes .controlItemRange len payload) s)

/-- `ACK` (R75): of control class. -/
def execAck (len : Len) (payload : List Byte) (s : State) : Host.Outcome State Fault Refusal :=
  .next (present (messageBytes .ack len payload) s)

/-! ### The six item codes: the code's bytes and the parameters are presented (R49, R107, R108) -/

/-- `NONE`, 0x0000, a known code (R49). -/
def execNoneItem (parameters : List Byte) (s : State) : Host.Outcome State Fault Refusal :=
  .next (present (itemBytes .noneItem parameters) s)

/-- `RECEIVER_STATE`, 0x0018 (R49). -/
def execReceiverState (parameters : List Byte) (s : State) : Host.Outcome State Fault Refusal :=
  .next (present (itemBytes .receiverState parameters) s)

/-- `RECEIVER_FREQUENCY`, 0x0020 (R49). -/
def execReceiverFrequency (parameters : List Byte) (s : State) : Host.Outcome State Fault Refusal :=
  .next (present (itemBytes .receiverFrequency parameters) s)

/-- `RF_FILTER`, 0x0044 (R49). -/
def execRfFilter (parameters : List Byte) (s : State) : Host.Outcome State Fault Refusal :=
  .next (present (itemBytes .rfFilter parameters) s)

/-- `AD_MODES`, 0x008A (R49). -/
def execAdModes (parameters : List Byte) (s : State) : Host.Outcome State Fault Refusal :=
  .next (present (itemBytes .adModes parameters) s)

/-- `IQ_OUTPUT_DATA_SAMPLE_RATE`, 0x00B8 (R49). -/
def execIqOutputDataSampleRate (parameters : List Byte) (s : State) : Host.Outcome State Fault Refusal :=
  .next (present (itemBytes .iqOutputDataSampleRate parameters) s)

end Sys2Proof.Machine
end

