-- ==== Sys2Proof/Machine/DataItem.lean ====
section
/-! DEFINITION. Data-item frames (42_data_item.md): `PARSE_DATA` by convention (b) (90_conflicts.md C1), the reference
function `BUILD_DATA` (90_conflicts.md C2), and the meanings of the four data message types. -/

namespace Sys2Proof.Machine

/-- What `PARSE_DATA` gives on success (R80). -/
structure DataFrame where
  type : Tag
  seq : Half
  seqPresent : Bool
  body : List Byte
  deriving DecidableEq, Repr

/-- `PARSE_DATA(b)` (R80): fails only below two bytes; of two or three bytes there is no sequence number and the
third byte is discarded. The class of the type is not looked at (R86). -/
def parseData : List Byte → Except Condition DataFrame
  | b0 :: b1 :: b2 :: b3 :: body =>
    .ok { type := (unpack (le16 b0 b1)).1, seq := le16 b2 b3, seqPresent := true, body := body }
  | b0 :: b1 :: _ => .ok { type := (unpack (le16 b0 b1)).1, seq := 0x0000, seqPresent := false, body := [] }
  | _ => .error (.invalidFrame .tooShort)

/-- `BUILD_DATA(type, parameters)` (R85): the total is reduced modulo 8192 before `PACK`, so that the type is never
disturbed; no length is rejected. -/
def buildData (t : Tag) (parameters : List Byte) : List Byte :=
  le16Bytes (pack t (BitVec.ofNat 13 (2 + parameters.length))) ++ parameters

/-! ### The four data message types: the frame's bytes are presented (R81 to R84, R58) -/

/-- `DATA_ITEM0` (R81). -/
def execDataItem0 (len : Len) (payload : List Byte) (s : State) : Host.Outcome State Fault Refusal :=
  .next (present (messageBytes .dataItem0 len payload) s)

/-- `DATA_ITEM1` (R82). -/
def execDataItem1 (len : Len) (payload : List Byte) (s : State) : Host.Outcome State Fault Refusal :=
  .next (present (messageBytes .dataItem1 len payload) s)

/-- `DATA_ITEM2` (R83). -/
def execDataItem2 (len : Len) (payload : List Byte) (s : State) : Host.Outcome State Fault Refusal :=
  .next (present (messageBytes .dataItem2 len payload) s)

/-- `DATA_ITEM3` (R84). -/
def execDataItem3 (len : Len) (payload : List Byte) (s : State) : Host.Outcome State Fault Refusal :=
  .next (present (messageBytes .dataItem3 len payload) s)

end Sys2Proof.Machine
end

