-- ==== Sys2Proof/Machine/PortEvents.lean ====
section
/-! DEFINITION. The meanings of the five port events (30_encoding.md R56), one clock cycle each: each adds exactly
one entry to `outputs`, the records of its cycle (44_frame_engine.md R100). -/

namespace Sys2Proof.Machine

/-- `RESET` (70_reset_and_hazards.md R150): every register to zero, nothing emitted, a frame in progress abandoned
without a `Done` (R151). -/
def execReset (s : State) : Host.Outcome State Fault Refusal :=
  .next (s.clearRegisters.emit [])

/-- `CFG_WRITE` (R102): stored whatever the value and the phase; nothing emitted. -/
def execCfgWrite (v : Half) (s : State) : Host.Outcome State Fault Refusal :=
  .next ((s.writeCfg v).emit [])

/-- `BEAT` (R103): one byte accepted. -/
def execBeat (d : Byte) (last : Bool) (s : State) : Host.Outcome State Fault Refusal :=
  .next (beat d last s)

/-- `BEAT_CFG` (R100 clause (b)): a `Beat` and a `CfgWrite` in one cycle; the beat reads the value `CFG_BITWIDTH` had
before the cycle. -/
def execBeatCfg (d : Byte) (last : Bool) (v : Half) (s : State) : Host.Outcome State Fault Refusal :=
  .next ((beat d last s).writeCfg v)

/-- `IDLE` (R111): no register changes and nothing is emitted. -/
def execIdle (s : State) : Host.Outcome State Fault Refusal :=
  .next (s.emit [])

end Sys2Proof.Machine
end

