-- ==== Sys2Proof/Machine/SampleExtractor.lean ====
section
/-! DEFINITION. The sample extractor (43_sample_extractor.md): `EXTRACT` and the meanings of the four bit widths. -/

namespace Sys2Proof.Machine

/-- Sample `i` of a body cut into groups of `g` bytes: the group's bytes assembled little-endian, zero-extended to
32 bits (R90). -/
def sampleAt (g : Nat) (body : List Byte) (i : Nat) : Sample :=
  BitVec.ofNat 32 (le ((body.drop (i * g)).take g))

/-- `EXTRACT(bitWidth, body)` (R90): the width is checked first, whatever the body (R91); one sample for each
complete group, in input order; the trailing bytes are discarded (R96). -/
def extract (bitWidth : Half) (body : List Byte) : Except Condition (List Sample) :=
  if bwOk bitWidth then
    let g := bitWidth.toNat / 8
    .ok ((List.range (body.length / g)).map (sampleAt g body))
  else .error .sampleSizeOutOfRange

/-! ### The four widths: the body is presented and cut into groups of the row's size -/

/-- `WIDTH8`: groups of one byte (R92). -/
def execWidth8 (body : List Byte) (s : State) : Host.Outcome State Fault Refusal :=
  .next (presentWith 1 body s)

/-- `WIDTH16`: groups of two bytes (R93). -/
def execWidth16 (body : List Byte) (s : State) : Host.Outcome State Fault Refusal :=
  .next (presentWith 2 body s)

/-- `WIDTH24`: groups of three bytes (R94). -/
def execWidth24 (body : List Byte) (s : State) : Host.Outcome State Fault Refusal :=
  .next (presentWith 3 body s)

/-- `WIDTH32`: groups of four bytes (R95). -/
def execWidth32 (body : List Byte) (s : State) : Host.Outcome State Fault Refusal :=
  .next (presentWith 4 body s)

end Sys2Proof.Machine
end

