-- ==== Sys2Proof/Machine/Dispatch.lean ====
section
/-! DEFINITION. One arm for each instruction: a direct call of its meaning. -/

namespace Sys2Proof.Machine

def exec (i : Instr) (s : State) : Host.Outcome State Fault Refusal :=
  match i with
  -- HDR16, control class
  | .setControlItem len payload => Sys2Proof.Machine.execSetControlItem len payload s
  | .currentControlItem len payload => Sys2Proof.Machine.execCurrentControlItem len payload s
  | .controlItemRange len payload => Sys2Proof.Machine.execControlItemRange len payload s
  | .ack len payload => Sys2Proof.Machine.execAck len payload s
  -- HDR16, data class
  | .dataItem0 len payload => Sys2Proof.Machine.execDataItem0 len payload s
  | .dataItem1 len payload => Sys2Proof.Machine.execDataItem1 len payload s
  | .dataItem2 len payload => Sys2Proof.Machine.execDataItem2 len payload s
  | .dataItem3 len payload => Sys2Proof.Machine.execDataItem3 len payload s
  -- ITEM16
  | .noneItem parameters => Sys2Proof.Machine.execNoneItem parameters s
  | .receiverState parameters => Sys2Proof.Machine.execReceiverState parameters s
  | .receiverFrequency parameters => Sys2Proof.Machine.execReceiverFrequency parameters s
  | .rfFilter parameters => Sys2Proof.Machine.execRfFilter parameters s
  | .adModes parameters => Sys2Proof.Machine.execAdModes parameters s
  | .iqOutputDataSampleRate parameters => Sys2Proof.Machine.execIqOutputDataSampleRate parameters s
  -- BITWIDTH16
  | .width8 body => Sys2Proof.Machine.execWidth8 body s
  | .width16 body => Sys2Proof.Machine.execWidth16 body s
  | .width24 body => Sys2Proof.Machine.execWidth24 body s
  | .width32 body => Sys2Proof.Machine.execWidth32 body s
  -- CTL3
  | .reset => Sys2Proof.Machine.execReset s
  | .cfgWrite v => Sys2Proof.Machine.execCfgWrite v s
  | .beat d last => Sys2Proof.Machine.execBeat d last s
  | .beatCfg d last v => Sys2Proof.Machine.execBeatCfg d last v s
  | .idle => Sys2Proof.Machine.execIdle s

end Sys2Proof.Machine
end

