-- ==== Sys2Proof/Machine/Fetch.lean ====
section
/-! DEFINITION. How a step finds its next instruction: the format is decided by the place in the frame (30_encoding.md
R59), that is by `PHASE`, the class, `SSE` and `BW`. Also how an encoded instruction is put where the next step finds
it. -/

namespace Sys2Proof.Machine

/-- The `Code` that the rest `bytes` of a frame is, at the engine's position in the frame (R59): from the first byte
a message; from offset 2 of a control-class frame an item code; in the body of a data-class frame with `SSE` = 0 the
width in `BW`. Elsewhere no row of the table applies (log entry 5). -/
def frameCode (s : State) (bytes : List Byte) : Option Code :=
  match s.phase with
  | .hdr0 => some (.frame bytes)
  | .aux0 => if isData s.hdr then none else some (.item bytes)
  | .body => if isData s.hdr && !s.sse then some (.body s.bw bytes) else none
  | .hdr1 => none
  | .aux1 => none

/-- The instruction that the rest of a frame is, if a row of the table applies and the decoder accepts it. -/
def decodeFrame (s : State) (bytes : List Byte) : Option Instr :=
  match frameCode s bytes with
  | some c => (decode c).toOption
  | none => none

/-- The stimuli that remain when a frame's first byte has been taken as one beat. -/
def frameRest : List Byte → List Stimulus → List Stimulus
  | [], more => more
  | b :: bs, more => .frame b bs :: more

/-- The next instruction and the stimuli after it. A cycle is its `CTL3` row. A `frame` line is the row that its
place selects; where none does (a one-byte frame, an unknown item code, an illegal width, a place between fields)
its first byte is one `BEAT` and the rest stays. When nothing is offered the cycle is `IDLE` (log entry 3). -/
def fetch (s : State) : Instr × List Stimulus :=
  match s.input with
  | [] => (.idle, [])
  | .cycle p :: more => (decodePins p, more)
  | .frame b bs :: more =>
    match decodeFrame s (b :: bs) with
    | some i => (i, more)
    | none => (.beat b bs.isEmpty, frameRest bs more)

/-- Puts an encoded instruction in its place, so that the next step fetches exactly it: the stimulus first in `input`,
and of the registers only what selects the format (log entry 7). -/
def place (c : Code) (s : State) : State :=
  match c with
  | .pins p => { s with input := .cycle p :: s.input }
  | .frame (b :: bs) => { s with phase := .hdr0, input := .frame b bs :: s.input }
  | .item (b :: bs) => { s with phase := .aux0, hdr := s.hdr &&& 0x7FFF, input := .frame b bs :: s.input }
  | .body w (b :: bs) =>
    { s with phase := .body, hdr := s.hdr ||| 0x8000, sse := false, bw := w, input := .frame b bs :: s.input }
  | _ => s

/-- The bare word of a table row put in its place (log entries 6 and 7). -/
def placeTableWord (s : State) (nbits w : Nat) : State :=
  match tableCode nbits w with
  | some c => place c s
  | none => s

/-- The state in which a step executes the instruction it fetched: the stimuli it consumed are gone. -/
def State.withInput (more : List Stimulus) (s : State) : State := { s with input := more }

end Sys2Proof.Machine
end

