-- ==== Sys2Proof/Machine/Ports.lean ====
section
/-! DEFINITION. The output ports (44_frame_engine.md R115): the records of one clock cycle as strobes with their data.
The data of a strobe that is low is absent (R24, 93_implementation_defined.md U10; log entry 11). -/

namespace Sys2Proof.Machine

/-- The output ports in one clock cycle. A strobe is 1 exactly when its field is present. -/
structure Ports where
  cfgRdata : Half
  inReady : Bool
  hdr : Option (Tag × Len × Bool)
  aux : Option (Bool × Half × Bool)
  sseStrobe : Bool
  bodyData : Option Byte
  smpData : Option Sample
  done : Option DoneRecord
  deriving DecidableEq, Repr

/-- The six kinds of record, in the order in which one beat emits them (R114). -/
inductive RecordKind where
  | hdr | aux | sse | body | smp | done
  deriving DecidableEq, Repr

/-- The kind of a record. -/
def Record.kind : Record → RecordKind
  | .hdr _ _ _ => .hdr
  | .aux _ _ _ => .aux
  | .sse => .sse
  | .body _ => .body
  | .smp _ => .smp
  | .done _ => .done

/-- The fields of a `Hdr` record. -/
def Record.hdr? : Record → Option (Tag × Len × Bool)
  | .hdr t len d => some (t, len, d)
  | _ => none

/-- The fields of an `Aux` record. -/
def Record.aux? : Record → Option (Bool × Half × Bool)
  | .aux q v k => some (q, v, k)
  | _ => none

/-- The field of a `Body` record. -/
def Record.body? : Record → Option Byte
  | .body d => some d
  | _ => none

/-- The field of a `Smp` record. -/
def Record.smp? : Record → Option Sample
  | .smp d => some d
  | _ => none

/-- The fields of a `Done` record. -/
def Record.done? : Record → Option DoneRecord
  | .done v => some v
  | _ => none

/-- The port rendering of one cycle's records, with the value of `CFG_BITWIDTH` in that cycle (R115): `in_ready` is
constantly 1. -/
def renderPorts (cfg : Half) (rs : List Record) : Ports where
  cfgRdata := cfg
  inReady := true
  hdr := rs.findSome? Record.hdr?
  aux := rs.findSome? Record.aux?
  sseStrobe := rs.contains .sse
  bodyData := rs.findSome? Record.body?
  smpData := rs.findSome? Record.smp?
  done := rs.findSome? Record.done?

/-- The records presented in clock cycle `k` (counted from 0): those of the event `OUT_LATENCY` cycles earlier, if
there was one (R115, R161). -/
def presentedAt (outputs : List (List Record)) (k : Nat) : List Record :=
  if k < Config.outLatency then [] else (outputs[k - Config.outLatency]?).getD []

end Sys2Proof.Machine
end

