-- ==== Sys2Proof/Machine/Refinement.lean ====
section
/-! DEFINITION. What the engine must emit for one frame, written from the function layer alone (44_frame_engine.md
R112): no register and no beat rule stands here. The refinement statements compare the engine with it. -/

namespace Sys2Proof.Machine

/-- The header of a frame of at least two bytes. -/
def headerOf (b : List Byte) : Half := le16 (b.getD 0 0) (b.getD 1 0)

/-- The records of a condition: `rs` when it holds. -/
def recordsIf (c : Bool) (rs : List Record) : List Record := if c then rs else []

/-- R112, control class: the records at beat `k` of the frame `b`. -/
def controlRecordsAt (b : List Byte) (k : Nat) : List Record :=
  let h := headerOf b
  let isLast := k + 1 == b.length
  let hdr := recordsIf (k == 1) [.hdr (unpack h).1 (unpack h).2 false]
  match parseControl b with
  | .error (.invalidFrame .unknownCode) =>
    hdr ++ recordsIf (k == 3) [.aux false (le16 (b.getD 2 0) (b.getD 3 0)) false]
      ++ recordsIf isLast [.done (doneInvalid .invalidCode)]
  | .error _ => hdr ++ recordsIf isLast [.done (doneInvalid .invalidShort)]
  | .ok r =>
    hdr ++ recordsIf (k == 3) [.aux false r.item true]
      ++ recordsIf (decide (4 ≤ k)) [.body (r.body.getD (k - 4) 0)]
      ++ recordsIf isLast
        [.done { status := .ok, isData := false, type := r.type, length := (unpack h).2, item := r.item,
                 seq := r.seq, seqPresent := false, sse := false }]

/-- The sample whose group ends at body byte `j`, if one does (R112). -/
def sampleEndingAt (g : Nat) (samples : List Sample) (j : Nat) : List Record :=
  if (j + 1) % g = 0 then
    match samples[j / g]? with
    | some v => [.smp v]
    | none => []
  else []

/-- R112, data class: the records at beat `k` of the frame `b` under the width `w`. -/
def dataRecordsAt (w : Half) (b : List Byte) (k : Nat) : List Record :=
  let h := headerOf b
  let isLast := k + 1 == b.length
  match parseData b with
  | .error _ => []
  | .ok r =>
    let failed := match extract w r.body with | .ok _ => false | .error _ => true
    recordsIf (k == 1) [.hdr (unpack h).1 (unpack h).2 true]
      ++ recordsIf (k == 3 && r.seqPresent) [.aux true r.seq true]
      ++ recordsIf (k == 1 && failed) [.sse]
      ++ recordsIf (decide (4 ≤ k)) [.body (r.body.getD (k - 4) 0)]
      ++ (match extract w r.body with
          | .ok samples => if 4 ≤ k then sampleEndingAt (w.toNat / 8) samples (k - 4) else []
          | .error _ => [])
      ++ recordsIf isLast
        [.done { status := .ok, isData := true, type := r.type, length := (unpack h).2, item := 0x0000,
                 seq := r.seq, seqPresent := r.seqPresent, sse := failed }]

/-- R112: the records at beat `k` of the frame `b` under the width `w`. The class is the top bit of the type. -/
def recordsAt (w : Half) (b : List Byte) (k : Nat) : List Record :=
  if b.length = 1 then recordsIf (k == 0) [.done (doneInvalid .invalidShort)]
  else if (unpack (headerOf b)).1.getLsbD 2 then dataRecordsAt w b k
  else controlRecordsAt b k

/-- R112: what the frame `b` gives under the width `w`, one list of records for each beat. -/
def frameRecords (w : Half) (b : List Byte) : List (List Record) :=
  (List.range b.length).map (recordsAt w b)

/-- The lists of records of a row of beats, with the `Done` record put at the end of the final one (R103). -/
def closeWith (v : DoneRecord) : List (List Record) → List (List Record)
  | [] => []
  | [rs] => [rs ++ [.done v]]
  | rs :: more => rs :: closeWith v more

/-- The lists of records of a row of beats spread over the port events that hold them: an event without a beat emits
nothing (R102, R111). -/
def spread : List Instr → List (List Record) → List (List Record)
  | [], _ => []
  | .beat _ _ :: is, rss => rss.headD [] :: spread is rss.tail
  | .beatCfg _ _ _ :: is, rss => rss.headD [] :: spread is rss.tail
  | _ :: is, rss => [] :: spread is rss

end Sys2Proof.Machine
end

