-- ==== Sys2Proof/Machine/Stimuli.lean ====
section
/-! DEFINITION. The stimulus notation of 30_encoding.md R58: what each line offers on the ports, as a list of stimuli.
A program is the lists of its lines, joined. -/

namespace Sys2Proof.Machine

/-- The clock cycle that an encoded port event is; a `Code` of another format is no cycle. -/
def cycleOf (i : Instr) : List Stimulus :=
  match encode i with
  | .pins p => [.cycle p]
  | _ => []

/-- `reset`: one `Reset` event. -/
def lineReset : List Stimulus := cycleOf .reset

/-- `cfg <v>`: one `CfgWrite(v)` event. -/
def lineCfg (v : Half) : List Stimulus := cycleOf (.cfgWrite v)

/-- `idle <k>`: `k` `Idle` events. -/
def lineIdle (k : Nat) : List Stimulus := (List.replicate k (cycleOf .idle)).flatten

/-- `frame b0 b1 ... b(n-1)`, `n >= 1`; of no byte there is no line. -/
def lineFrame : List Byte → List Stimulus
  | [] => []
  | b :: bs => [.frame b bs]

/-- `ctrl <TYPE> <CODE> p0 ... p(k-1)`: the frame of `BUILD_CONTROL`; an error of the notation above 8187 bytes. -/
def lineCtrl (m : MessageType) (c : ItemCode) (ps : List Byte) : Except Condition (List Stimulus) :=
  match buildControl m.tag c.value ps with
  | .ok bytes => .ok (lineFrame bytes)
  | .error e => .error e

/-- `data <TYPE> p0 ... p(k-1)`: the frame of `BUILD_DATA`. -/
def lineData (m : MessageType) (ps : List Byte) : List Stimulus := lineFrame (buildData m.tag ps)

/-- `dataseq <TYPE> <seq> q0 ... q(k-1)`: `data` with the sequence number's bytes first. -/
def lineDataseq (m : MessageType) (sequence : Half) (qs : List Byte) : List Stimulus :=
  lineData m (le16Bytes sequence ++ qs)

end Sys2Proof.Machine
end

