-- ==== Sys2Proof/Safety.lean ====
section
/-! DEFINITION. What counts as a safe state and a safe run, in the terms the statements use: the invariant of
10_state.md R25 in the inductive form that every step keeps, and runs of port events. -/

namespace Sys2Proof.Machine

/-- R25 word for word. (a) holds by the type of `PHASE`; (c) to (e) speak of states with `PHASE` > 0. -/
def State.MeetsR25 (s : State) : Prop :=
  (s.phase = .body → isData s.hdr = true → s.sse = false →
      bwOk s.bw = true ∧ s.gidx.toNat < (gbytes s.bw).toNat ∧ s.acc.toNat < 2 ^ (8 * s.gidx.toNat)) ∧
  (s.phase ≠ .hdr0 → s.sse = true → (s.phase ≠ .hdr1 ∧ isData s.hdr = true)) ∧
  (s.phase ≠ .hdr0 → s.codeOk = true → (s.phase = .body ∧ isData s.hdr = false ∧ knownCode s.aux = true)) ∧
  (s.phase ≠ .hdr0 → s.seqp = true → (s.phase = .body ∧ isData s.hdr = true))

/-- Between a frame's first beat and its body the group and the flags `CODE_OK` and `SEQP` are still clear (R104). -/
def State.GroupClear (s : State) : Prop :=
  s.acc = 0 ∧ s.gidx = 0 ∧ s.codeOk = false ∧ s.seqp = false

/-- The inductive form of R25: what holds at each value of `PHASE` (R104 to R109). At `PHASE` = 0 every register but
`CFG_BITWIDTH` is dead (R21), so nothing is asked. -/
def State.Inv (s : State) : Prop :=
  match s.phase with
  | .hdr0 => True
  | .hdr1 => s.GroupClear ∧ s.sse = false
  | .aux0 => s.GroupClear ∧ s.sse = sampleSizeError s.hdr s.bw
  | .aux1 => s.GroupClear ∧ s.sse = sampleSizeError s.hdr s.bw
  | .body =>
    s.sse = sampleSizeError s.hdr s.bw ∧
    s.seqp = isData s.hdr ∧
    s.codeOk = (!isData s.hdr && knownCode s.aux) ∧
    (isData s.hdr = true → s.sse = false →
      s.gidx.toNat < (gbytes s.bw).toNat ∧ s.acc.toNat < 2 ^ (8 * s.gidx.toNat))

/-- The five port events (30_encoding.md R56). -/
def isPortEvent : Instr → Bool
  | .reset => true
  | .cfgWrite _ => true
  | .beat _ _ => true
  | .beatCfg _ _ _ => true
  | .idle => true
  | _ => false

/-- A row of instructions executed one after another, stopping at the first that gives no next state. -/
def runInstrs : List Instr → State → Host.Outcome State Fault Refusal
  | [], s => .next s
  | i :: is, s =>
    match exec i s with
    | .next t => runInstrs is t
    | .fault r => .fault r
    | .refused r => .refused r

/-- The bytes a row of port events presents, each with its `last` flag. -/
def beatsOf : List Instr → List (Byte × Bool)
  | [] => []
  | .beat d last :: is => (d, last) :: beatsOf is
  | .beatCfg d last _ :: is => (d, last) :: beatsOf is
  | _ :: is => beatsOf is

/-- The bytes of a frame with their `last` flags: 1 on the final byte and on no other (R153). -/
def framed : List Byte → List (Byte × Bool)
  | [] => []
  | b :: bs => (b, bs.isEmpty) :: framed bs

/-- The value `CFG_BITWIDTH` has after a row of port events without `Reset`: the last one written, if any (R102). -/
def lastCfg (w : Half) : List Instr → Half
  | [] => w
  | .cfgWrite v :: is => lastCfg v is
  | .beatCfg _ _ v :: is => lastCfg v is
  | _ :: is => lastCfg w is

/-- A run is safe when it never stops: whatever the number of steps there is a next state. -/
def State.Safe (s : State) : Prop :=
  ∀ n : Nat, ∃ t : State, Host.Core.run Sys2Proof.core n s = Host.Outcome.next t

end Sys2Proof.Machine
end

