-- ==== Sys2Proof/Certificates/Slice0/Obligations.lean ====
section
/-! DEFINITION. The statements for the provers, in the order of OBLIGATIONS.json: encoding and fetch, header codec,
control items, data items, sample extractor, port events, beats, whole frames, invariants, whole-machine rules. -/

open Sys2Proof Sys2Proof.Machine

/-! ### Encoding and fetch -/

/-- 30_encoding.md R45 to R56: the decoder gives back every well-formed instruction from its encoding. -/
def Obligations.DecodeOfEncodeIsTheInstruction : Prop :=
  ∀ i : Instr, i.wellFormed = true → decode (encode i) = .ok i

/-- R45, R48, R51, R67: no bit or byte of a frame, of an item code with its parameters, or of a width with its body
is lost by decoding: what decodes encodes to the same `Code` again. (Pins are left out: an ignored data pin is
not kept, R56.) -/
def Obligations.EncodeOfDecodeIsTheBytes : Prop :=
  ∀ (c : Code) (i : Instr), (∀ p, c ≠ .pins p) → decode c = .ok i → encode i = c

/-- R59: the row of the decoded instruction is the row that its word matches, in every format. -/
def Obligations.DecodedRowMatchesItsWord : Prop :=
  ∀ (c : Code) (i : Instr) (w : Nat), decode c = .ok i → c.tableWord = some w → w &&& i.rowMask = i.rowMatch

/-- R54, R59: an item code that is none of the six and a width that is none of the four have no row and are
rejected by name; every header and every value of the control inputs has a row. -/
def Obligations.WordsWithoutARowAreRejectedByName : Prop :=
  (∀ (b2 b3 : Byte) (ps : List Byte),
    decode (.item (b2 :: b3 :: ps)) = .error (.unknownItemCode (le16 b2 b3)) ↔
      (le16 b2 b3).toNat ∉ [0x0000, 0x0018, 0x0020, 0x0044, 0x008A, 0x00B8]) ∧
  (∀ (w : Half) (b : Byte) (bs : List Byte),
    decode (.body w (b :: bs)) = .error (.illegalWidth w) ↔ w.toNat ∉ [8, 16, 24, 32]) ∧
  (∀ (b0 b1 : Byte) (bs : List Byte), ∃ i, decode (.frame (b0 :: b1 :: bs)) = .ok i) ∧
  (∀ p : Pins, ∃ i, decode (.pins p) = .ok i)

/-- R46, R49, R51, R56: a few words written out from the tables decode to the instructions they stand for. -/
def Obligations.WrittenWordsDecode : Prop :=
  decode (.frame [0x0A, 0x00, 0x20, 0x00]) = .ok (.setControlItem 10 [0x20, 0x00]) ∧
  decode (.frame [0x04, 0x60, 0x00, 0x00]) = .ok (.ack 4 [0x00, 0x00]) ∧
  decode (.frame [0x04, 0x84]) = .ok (.dataItem0 1028 []) ∧
  decode (.frame [0xFF, 0xFF]) = .ok (.dataItem3 8191 []) ∧
  decode (.item [0x8A, 0x00, 0x03]) = .ok (.adModes [0x03]) ∧
  decode (.item [0x18, 0x01]) = .error (.unknownItemCode 0x0118) ∧
  decode (.body 0x0018 [0x11]) = .ok (.width24 [0x11]) ∧
  decode (.pins { ctl := 0b011, inData := 0x0A, inLast := true, cfgWdata := 0x0008 }) = .ok (.beatCfg 0x0A true 0x0008) ∧
  decode (.pins { ctl := 0b111, inData := 0x0A, inLast := true, cfgWdata := 0x0008 }) = .ok .reset

/-- R58, R59: what a step runs. A clock cycle runs its `CTL3` row; a `frame` line runs the row that its place
selects; where no row applies its first byte is one `BEAT` and the rest of the line stays; with nothing offered the
cycle is `IDLE` (the model's choice, log entries 1, 3 and 5). -/
def Obligations.StepRunsTheDecodedInstruction : Prop :=
  ∀ s : State,
    (∀ p more, s.input = .cycle p :: more → step s = exec (decodePins p) (s.withInput more)) ∧
    (∀ b bs more c i, s.input = .frame b bs :: more → frameCode s (b :: bs) = some c → decode c = .ok i →
      step s = exec i (s.withInput more)) ∧
    (∀ b bs more, s.input = .frame b bs :: more →
      (∀ c i, frameCode s (b :: bs) = some c → decode c ≠ .ok i) →
      step s = exec (.beat b bs.isEmpty) (s.withInput (frameRest bs more))) ∧
    (s.input = [] → step s = exec .idle s)

/-- Every well-formed instruction, put in its place by `place`, is the one the next step runs, and the step takes
nothing else from the input (log entry 7). -/
def Obligations.PlacedInstructionIsTheNextStep : Prop :=
  ∀ (i : Instr) (s : State), i.wellFormed = true →
    step (place (encode i) s) = exec i ((place (encode i) s).withInput s.input)

/-- R58, R59: a `frame` line that a row of the table reads whole does exactly what its bytes do as `BEAT` events, in
order, with `last` = 1 on the final one: the message types, the item codes and the widths are names for what the beat
rules do. That the whole row of bytes is one instruction is the model's choice (log entry 4), and so is how
`decodeFrame` selects the row, from the engine's place (log entry 5). The lists `outputs` and `input` are the model's
own fields (log entries 1 and 2). -/
def Obligations.FrameLineIsItsBeats : Prop :=
  ∀ (s : State) (b : Byte) (bs : List Byte) (more : List Stimulus) (i : Instr),
    s.input = .frame b bs :: more → decodeFrame s (b :: bs) = some i →
      step s = runInstrs ((framed (b :: bs)).map fun x => .beat x.1 x.2) (s.withInput more)

/-- In every state, whatever its `PHASE`, a message or an item code does exactly what the bytes of its encoding do as
`BEAT` events, in order, with `last` = 1 on the final one. That the whole row of bytes is one instruction (log entry
4) and what `exec` does with a row outside its place (log entry 5) are the model's choice: R58 gives only the beats of
a `frame` line, and no rule speaks of a row outside its place. The lists `outputs` and `input` are the model's own
fields (log entries 1 and 2). -/
def Obligations.MessagesAndItemsAreTheirBeats : Prop :=
  ∀ (i : Instr) (s : State) (bytes : List Byte), encode i = .frame bytes ∨ encode i = .item bytes →
    exec i s = runInstrs ((framed bytes).map fun x => .beat x.1 x.2) s

/-- R58: the example of the stimulus notation, and the expansion of `ctrl` and `dataseq` through the builders. -/
def Obligations.NotationLinesExpandAsWritten : Prop :=
  lineCtrl .setControlItem .receiverState [0x80, 0x02, 0x00, 0x00] =
    .ok (lineFrame [0x08, 0x00, 0x18, 0x00, 0x80, 0x02, 0x00, 0x00]) ∧
  lineDataseq .dataItem0 0x0007 [0x34, 0x12, 0xFF, 0xFF, 0x00, 0x80] =
    lineFrame [0x0A, 0x80, 0x07, 0x00, 0x34, 0x12, 0xFF, 0xFF, 0x00, 0x80] ∧
  lineData .dataItem0 [] = lineFrame [0x02, 0x80]

/-! ### Header codec -/

/-- 40_header_codec.md R65: `UNPACK` is the shift and the mask, on all 65536 headers, and the subtraction form agrees. -/
def Obligations.UnpackIsShiftAndMask : Prop :=
  ∀ h : Half,
    (unpack h).1.toNat = h.toNat >>> 13 ∧
    (unpack h).2.toNat = h.toNat &&& 0x1FFF ∧
    (unpack h).2.toNat = h.toNat - ((unpack h).1.toNat <<< 13)

/-- R66: `PACK` is the OR. R68: the OR is the sum, which the spec marks as its own inference, 'derived: from rules R65
and R66'. -/
def Obligations.PackIsOrAndSum : Prop :=
  ∀ (t : Tag) (len : Len),
    (pack t len).toNat = len.toNat ||| (t.toNat <<< 13) ∧ (pack t len).toNat = len.toNat + (t.toNat <<< 13)

/-- R67: `PACK` and `UNPACK` are inverse bijections. That `PACK` undoes `UNPACK`, and with it that the two are
bijections, the spec marks as its own inference, 'derived: from rules R65 and R66'. -/
def Obligations.PackAndUnpackAreInverse : Prop :=
  (∀ (t : Tag) (len : Len), unpack (pack t len) = (t, len)) ∧
  (∀ h : Half, pack (unpack h).1 (unpack h).2 = h)

/-- 30_encoding.md R46, R47: the tag table is a bijection, and the class of a header is the top bit of its type,
set exactly for the four `DataItem` types. -/
def Obligations.TypeTableIsABijectionAndGivesTheClass : Prop :=
  (∀ m : MessageType, MessageType.ofTag m.tag = m) ∧
  (∀ t : Tag, (MessageType.ofTag t).tag = t) ∧
  (∀ h : Half, isData h = (unpack h).1.getLsbD 2) ∧
  (∀ h : Half, isData h = true ↔
    MessageType.ofTag (unpack h).1 ∈ [.dataItem0, .dataItem1, .dataItem2, .dataItem3])

/-- 10_state.md R19: the derived predicates and values. -/
def Obligations.DerivedPredicates : Prop :=
  (∀ h : Half, isData h = h.getLsbD 15) ∧
  (∀ w : Half, bwOk w = true ↔ (w.toNat = 8 ∨ w.toNat = 16 ∨ w.toNat = 24 ∨ w.toNat = 32)) ∧
  (∀ w : Half, (gbytes w).toNat = (w.toNat / 8) % 8) ∧
  (∀ w : Half, bwOk w = true →
    (gbytes w).toNat = w.toNat / 8 ∧ 1 ≤ (gbytes w).toNat ∧ (gbytes w).toNat ≤ 4) ∧
  (∀ c : Half, knownCode c = true ↔ c.toNat ∈ [0x0000, 0x0018, 0x0020, 0x0044, 0x008A, 0x00B8]) ∧
  (∀ c : Half, knownCode c = true ↔ ∃ k : ItemCode, k.value = c)

/-! ### Control-item frames, function layer -/

/-- 41_control_item.md R70: `PARSE_CONTROL` of every byte list. -/
def Obligations.ParseControlByLengthThenCode : Prop :=
  ∀ b : List Byte,
    (b.length < 4 → parseControl b = .error (.invalidFrame .tooShort)) ∧
    (∀ b0 b1 b2 b3 body, b = b0 :: b1 :: b2 :: b3 :: body →
      ((b2.toNat + 256 * b3.toNat) ∈ [0x0000, 0x0018, 0x0020, 0x0044, 0x008A, 0x00B8] →
        ∃ r, parseControl b = .ok r ∧ r.type.toNat = b1.toNat / 32 ∧ r.item.toNat = b2.toNat + 256 * b3.toNat ∧
          r.seq = 0x0000 ∧ r.body = body) ∧
      ((b2.toNat + 256 * b3.toNat) ∉ [0x0000, 0x0018, 0x0020, 0x0044, 0x008A, 0x00B8] →
        parseControl b = .error (.invalidFrame .unknownCode)))

/-- R76: `BUILD_CONTROL`: too many parameters fail; otherwise the four fixed bytes and the parameters, and the length
field is the exact length of the result. -/
def Obligations.BuildControlLayoutAndLimit : Prop :=
  ∀ (t : Tag) (c : Half) (ps : List Byte),
    (8187 < ps.length → buildControl t c ps = .error .lengthExceeded) ∧
    (ps.length ≤ 8187 → ∃ b0 b1 b2 b3 : Byte,
      buildControl t c ps = .ok (b0 :: b1 :: b2 :: b3 :: ps) ∧
      (unpack (le16 b0 b1)).1 = t ∧ (unpack (le16 b0 b1)).2.toNat = 4 + ps.length ∧ le16 b2 b3 = c)

/-- R77: the round trip through the functions for all eight types, and through the engine: for the types 0 to 3 the
engine delivers type, code and parameters; the types 4 to 7 it routes to the data parser. The lists `outputs` and
`input` are the model's own fields (log entries 1 and 2). -/
def Obligations.ControlItemRoundTrip : Prop :=
  ∀ (t : Tag) (c : Half) (ps : List Byte), knownCode c = true → ps.length ≤ 8187 →
    ∃ bytes, buildControl t c ps = .ok bytes ∧
      parseControl bytes = .ok { type := t, item := c, seq := 0x0000, body := ps } ∧
      ∀ s : State, s.phase = .hdr0 → ∃ u new,
        runInstrs ((framed bytes).map fun x => .beat x.1 x.2) s = .next u ∧ u.outputs = s.outputs ++ new ∧
        new.flatten.filterMap Record.body? = ps ∧
        (t.toNat < 4 → new.flatten.filterMap Record.done? =
          [{ status := .ok, isData := false, type := t, length := BitVec.ofNat 13 bytes.length, item := c,
             seq := 0x0000, seqPresent := false, sse := false }]) ∧
        (4 ≤ t.toNat → new.flatten.filterMap Record.done? =
          [{ status := .ok, isData := true, type := t, length := BitVec.ofNat 13 bytes.length, item := 0x0000,
             seq := c, seqPresent := true, sse := !bwOk s.cfgBitwidth }])

/-! ### Data-item frames, function layer -/

/-- 42_data_item.md R80: `PARSE_DATA` of every byte list. -/
def Obligations.ParseDataByLength : Prop :=
  ∀ b : List Byte,
    (b.length < 2 → parseData b = .error (.invalidFrame .tooShort)) ∧
    (∀ b0 b1 rest, b = b0 :: b1 :: rest → rest.length < 2 →
      ∃ r, parseData b = .ok r ∧ r.type.toNat = b1.toNat / 32 ∧ r.seq = 0x0000 ∧ r.seqPresent = false ∧ r.body = []) ∧
    (∀ b0 b1 b2 b3 body, b = b0 :: b1 :: b2 :: b3 :: body →
      ∃ r, parseData b = .ok r ∧ r.type.toNat = b1.toNat / 32 ∧ r.seq.toNat = b2.toNat + 256 * b3.toNat ∧
        r.seqPresent = true ∧ r.body = body)

/-- R85: `BUILD_DATA`: the header and the parameters, no length rejected, the type undisturbed, and the length field
the total modulo 8192. -/
def Obligations.BuildDataLayoutAndTruncation : Prop :=
  ∀ (t : Tag) (ps : List Byte), ∃ b0 b1 : Byte,
    buildData t ps = b0 :: b1 :: ps ∧
    (unpack (le16 b0 b1)).1 = t ∧ (unpack (le16 b0 b1)).2.toNat = (2 + ps.length) % 8192

/-- R86: what `PARSE_DATA` makes of what `BUILD_DATA` built. The spec marks it as its own inference, 'derived: from
rules R80 and R85'. -/
def Obligations.DataItemParseOfBuild : Prop :=
  ∀ t : Tag,
    parseData (buildData t []) = .ok { type := t, seq := 0x0000, seqPresent := false, body := [] } ∧
    (∀ p : Byte, parseData (buildData t [p]) = .ok { type := t, seq := 0x0000, seqPresent := false, body := [] }) ∧
    (∀ (p q : Byte) (ps : List Byte),
      parseData (buildData t (p :: q :: ps)) = .ok { type := t, seq := le16 p q, seqPresent := true, body := ps })

/-! ### Sample extractor, function layer -/

/-- 43_sample_extractor.md R90 to R95, R98: for each legal width the number of samples and every sample from its
bytes. R98 the spec marks as its own inference, 'derived: from rule R90'. -/
def Obligations.ExtractByWidth : Prop :=
  ∀ body : List Byte,
    (∃ l, extract 8 body = .ok l ∧ l.length = body.length ∧
      ∀ i, i < l.length → l[i]? = some ((body.getD i 0).setWidth 32)) ∧
    (∃ l, extract 16 body = .ok l ∧ l.length = body.length / 2 ∧
      ∀ i, i < l.length → l[i]? = some
        ((body.getD (2 * i) 0).setWidth 32 ||| (body.getD (2 * i + 1) 0).setWidth 32 <<< 8)) ∧
    (∃ l, extract 24 body = .ok l ∧ l.length = body.length / 3 ∧
      ∀ i, i < l.length → l[i]? = some
        ((body.getD (3 * i) 0).setWidth 32 ||| (body.getD (3 * i + 1) 0).setWidth 32 <<< 8
          ||| (body.getD (3 * i + 2) 0).setWidth 32 <<< 16)) ∧
    (∃ l, extract 32 body = .ok l ∧ l.length = body.length / 4 ∧
      ∀ i, i < l.length → l[i]? = some
        ((body.getD (4 * i) 0).setWidth 32 ||| (body.getD (4 * i + 1) 0).setWidth 32 <<< 8
          ||| (body.getD (4 * i + 2) 0).setWidth 32 <<< 16 ||| (body.getD (4 * i + 3) 0).setWidth 32 <<< 24))

/-- R91: the width is judged first, whatever the body, the empty one included. -/
def Obligations.ExtractRejectsIllegalWidths : Prop :=
  ∀ (w : Half) (body : List Byte),
    extract w body = .error .sampleSizeOutOfRange ↔ w.toNat ∉ [8, 16, 24, 32]

/-- R96: the bytes after the last complete group influence no sample. -/
def Obligations.TrailingBytesChangeNoSample : Prop :=
  ∀ (w : Half) (body tail : List Byte), bwOk w = true →
    body.length % (w.toNat / 8) = 0 → tail.length < w.toNat / 8 → extract w (body ++ tail) = extract w body

/-- 20_memory.md R33: the views of the same body at the four widths agree, whatever follows the bytes that make the
sample. The spec marks it as its own inference, 'derived: from rule R32 and 43_sample_extractor.md rules R92 to R95'.
-/
def Obligations.MixedWidthViewsAgree : Prop :=
  (∀ (b0 b1 : Byte) (more : List Byte), ∃ s0 s1 l m,
    extract 8 (b0 :: b1 :: more) = .ok (s0 :: s1 :: l) ∧
    extract 16 (b0 :: b1 :: more) = .ok ((s0 ||| s1 <<< 8) :: m)) ∧
  (∀ (b0 b1 b2 b3 : Byte) (more : List Byte), ∃ s0 s1 l m,
    extract 16 (b0 :: b1 :: b2 :: b3 :: more) = .ok (s0 :: s1 :: l) ∧
    extract 32 (b0 :: b1 :: b2 :: b3 :: more) = .ok ((s0 ||| s1 <<< 16) :: m)) ∧
  (∀ (b0 b1 b2 : Byte) (more : List Byte), ∃ m,
    extract 24 (b0 :: b1 :: b2 :: more) =
      .ok ((b0.setWidth 32 ||| b1.setWidth 32 <<< 8 ||| b2.setWidth 32 <<< 16) :: m))

/-! ### Port events -/

/-- 30_encoding.md R56: which event each value of the control inputs selects; an input the event does not read is
ignored. -/
def Obligations.ControlInputsSelectTheEvent : Prop :=
  ∀ (d : Byte) (last : Bool) (v : Half),
    (∀ c : BitVec 3, c.getLsbD 2 = true → decodePins { ctl := c, inData := d, inLast := last, cfgWdata := v } = .reset) ∧
    decodePins { ctl := 0b010, inData := d, inLast := last, cfgWdata := v } = .cfgWrite v ∧
    decodePins { ctl := 0b001, inData := d, inLast := last, cfgWdata := v } = .beat d last ∧
    decodePins { ctl := 0b011, inData := d, inLast := last, cfgWdata := v } = .beatCfg d last v ∧
    decodePins { ctl := 0b000, inData := d, inLast := last, cfgWdata := v } = .idle

/-- 70_reset_and_hazards.md R150 and 10_state.md R20: `RESET` sets every register to zero, emits nothing, and runs
whatever the other two control inputs say. That a cycle adds an entry to the model's own field `outputs`, and that
`RESET` leaves the model's own field `input`, is the model's choice (log entries 1 and 2). -/
def Obligations.ResetZeroesEveryRegister : Prop :=
  ∀ s : State,
    exec .reset s = .next
      { cfgBitwidth := 0, hdr := 0, aux := 0, bw := 0, acc := 0, gidx := 0, phase := .hdr0, sse := false,
        codeOk := false, seqp := false, input := s.input, outputs := s.outputs ++ [[]] } ∧
    ∀ p more, s.input = .cycle p :: more → p.ctl.getLsbD 2 = true → step s = exec .reset (s.withInput more)

/-- 44_frame_engine.md R102: `CFG_WRITE` stores any value in any phase, touches nothing else and emits nothing. The
lists `outputs` and `input` are the model's own fields (log entries 1 and 2). -/
def Obligations.CfgWriteStoresAnyValue : Prop :=
  ∀ (v : Half) (s : State),
    exec (.cfgWrite v) s = .next { s with cfgBitwidth := v, outputs := s.outputs ++ [[]] }

/-- R111: `IDLE` changes no register and emits nothing. The lists `outputs` and `input` are the model's own fields
(log entries 1 and 2). -/
def Obligations.IdleChangesNothing : Prop :=
  ∀ s : State, exec .idle s = .next { s with outputs := s.outputs ++ [[]] }

/-- R100 clause (b): `BEAT_CFG` is the `BEAT`, which reads the old `CFG_BITWIDTH`, with the write. It is one cycle:
one entry of the outputs. The lists `outputs` and `input` are the model's own fields (log entries 1 and 2). -/
def Obligations.BeatCfgIsBeatWithTheWrite : Prop :=
  ∀ (d : Byte) (last : Bool) (v : Half) (s : State), ∃ t rs,
    exec (.beat d last) s = .next t ∧ exec (.beatCfg d last v) s = .next { t with cfgBitwidth := v } ∧
    t.cfgBitwidth = s.cfgBitwidth ∧ t.outputs = s.outputs ++ [rs]

/-- 20_memory.md R42: when a configuration write is seen: by a frame whose first beat is a later event; not by a frame
in progress; not by a frame whose first beat is in the same cycle. -/
def Obligations.ConfigurationIsSeenFromTheNextFrame : Prop :=
  ∀ (s : State) (d : Byte) (v : Half),
    (s.phase = .hdr0 →
      (∃ t, runInstrs [.cfgWrite v, .beat d false] s = .next t ∧ t.bw = v ∧ t.cfgBitwidth = v) ∧
      (∃ t, exec (.beatCfg d false v) s = .next t ∧ t.bw = s.cfgBitwidth ∧ t.cfgBitwidth = v)) ∧
    (s.phase ≠ .hdr0 → ∀ last,
      (∃ t, runInstrs [.cfgWrite v, .beat d last] s = .next t ∧ t.bw = s.bw ∧ t.cfgBitwidth = v) ∧
      (∃ t, exec (.beatCfg d last v) s = .next t ∧ t.bw = s.bw ∧ t.cfgBitwidth = v))

/-- 70_reset_and_hazards.md R151: `RESET` during a frame abandons it: what was emitted stays, no `Done` is emitted,
and the next beat is the first byte of a new frame. The lists `outputs` and `input` are the model's own fields (log
entries 1 and 2). -/
def Obligations.ResetAbandonsTheFrame : Prop :=
  ∀ (s : State) (d : Byte) (last : Bool), ∃ t,
    runInstrs [.reset, .beat d last] s = .next t ∧
    t.outputs = s.outputs ++ [[], if last then [.done (doneInvalid .invalidShort)] else []] ∧
    t.phase = (if last then .hdr0 else .hdr1) ∧ lowByte t.hdr = d

/-! ### The five beat rules -/

/-- 44_frame_engine.md R104: the first beat of a frame. The lists `outputs` and `input` are the model's own fields
(log entries 1 and 2). -/
def Obligations.BeatAtPhase0 : Prop :=
  ∀ (d : Byte) (last : Bool) (s : State), s.phase = .hdr0 →
    exec (.beat d last) s = .next
      { s with
        hdr := le16 d (highByte s.hdr), bw := s.cfgBitwidth, acc := 0, gidx := 0, sse := false, codeOk := false,
        seqp := false, phase := if last then .hdr0 else .hdr1,
        outputs := s.outputs ++ [if last then
          [.done { status := .invalidShort, isData := false, type := 0, length := 0, item := 0, seq := 0,
                   seqPresent := false, sse := false }] else []] }

/-- R105: the header's high byte: `Hdr` always, `Sse` for the data class under an illegal width, and the verdict on a
two-byte frame. The lists `outputs` and `input` are the model's own fields (log entries 1 and 2). -/
def Obligations.BeatAtPhase1 : Prop :=
  ∀ (d : Byte) (last : Bool) (s : State), s.phase = .hdr1 →
    let h := le16 (lowByte s.hdr) d
    let data := (unpack h).1.getLsbD 2
    let bad := data && !(s.bw == 8 || s.bw == 16 || s.bw == 24 || s.bw == 32)
    exec (.beat d last) s = .next
      { s with
        hdr := h, sse := s.sse || bad, phase := if last then .hdr0 else .aux0,
        outputs := s.outputs ++ [[.hdr (unpack h).1 (unpack h).2 data] ++ (if bad then [.sse] else []) ++
          (if last then
            [.done (if data then
              { status := .ok, isData := true, type := (unpack h).1, length := (unpack h).2, item := 0, seq := 0,
                seqPresent := false, sse := s.sse || bad }
            else
              { status := .invalidShort, isData := false, type := 0, length := 0, item := 0, seq := 0,
                seqPresent := false, sse := false })] else [])] }

/-- R106: the low byte of the item code or sequence number, and the verdict on a three-byte frame. The lists `outputs`
and `input` are the model's own fields (log entries 1 and 2). -/
def Obligations.BeatAtPhase2 : Prop :=
  ∀ (d : Byte) (last : Bool) (s : State), s.phase = .aux0 →
    exec (.beat d last) s = .next
      { s with
        aux := le16 d (highByte s.aux), phase := if last then .hdr0 else .aux1,
        outputs := s.outputs ++ [if last then
          [.done (if isData s.hdr then
            { status := .ok, isData := true, type := (unpack s.hdr).1, length := (unpack s.hdr).2, item := 0, seq := 0,
              seqPresent := false, sse := s.sse }
          else
            { status := .invalidShort, isData := false, type := 0, length := 0, item := 0, seq := 0,
              seqPresent := false, sse := false })] else []] }

/-- R107: the high byte of the item code or sequence number: `SEQP` or `CODE_OK`, the `Aux` record, and the verdict on
a four-byte frame. The lists `outputs` and `input` are the model's own fields (log entries 1 and 2). -/
def Obligations.BeatAtPhase3 : Prop :=
  ∀ (d : Byte) (last : Bool) (s : State), s.phase = .aux1 →
    let a := le16 (lowByte s.aux) d
    let known := decide (a.toNat ∈ [0x0000, 0x0018, 0x0020, 0x0044, 0x008A, 0x00B8])
    exec (.beat d last) s = .next
      { s with
        aux := a, seqp := if isData s.hdr then true else s.seqp,
        codeOk := if isData s.hdr then s.codeOk else known,
        phase := if last then .hdr0 else .body,
        outputs := s.outputs ++ [(if isData s.hdr then [.aux true a true] else [.aux false a known]) ++
          (if last then
            [.done (if isData s.hdr then
              { status := .ok, isData := true, type := (unpack s.hdr).1, length := (unpack s.hdr).2, item := 0,
                seq := a, seqPresent := true, sse := s.sse }
            else if known then
              { status := .ok, isData := false, type := (unpack s.hdr).1, length := (unpack s.hdr).2, item := a,
                seq := 0, seqPresent := false, sse := false }
            else
              { status := .invalidCode, isData := false, type := 0, length := 0, item := 0, seq := 0,
                seqPresent := false, sse := false })] else [])] }

/-- R108, R109, R110, data class: a body byte is emitted; with `SSE` = 0 it joins the group or completes it; the
verdict at the last beat. `GIDX + 1` is compared as a 3-bit value. That the rules are applied as written in states
that no run reaches, where `GIDX` may wrap in its 2 bits and `BW` may be illegal with `SSE` = 0, is the model's choice
(log entry 19). The lists `outputs` and `input` are the model's own fields (log entries 1 and 2). -/
def Obligations.BeatAtPhase4OfADataFrame : Prop :=
  ∀ (d : Byte) (last : Bool) (s : State), s.phase = .body → isData s.hdr = true →
    let a := s.acc ||| (d.setWidth 32 <<< (8 * s.gidx.toNat))
    let full := decide (s.gidx.toNat + 1 = (gbytes s.bw).toNat)
    exec (.beat d last) s = .next
      { s with
        acc := if s.sse then s.acc else if full then 0 else a,
        gidx := if s.sse then s.gidx else if full then 0 else s.gidx + 1,
        phase := if last then .hdr0 else .body,
        outputs := s.outputs ++ [[.body d] ++ (if !s.sse && full then [.smp a] else []) ++
          (if last then
            [.done { status := .ok, isData := true, type := (unpack s.hdr).1, length := (unpack s.hdr).2, item := 0,
                     seq := if s.seqp then s.aux else 0, seqPresent := s.seqp, sse := s.sse }] else [])] }

/-- R108, R110, control class: with a known code a body byte is emitted, else it is discarded; never a sample. The
lists `outputs` and `input` are the model's own fields (log entries 1 and 2). -/
def Obligations.BeatAtPhase4OfAControlFrame : Prop :=
  ∀ (d : Byte) (last : Bool) (s : State), s.phase = .body → isData s.hdr = false →
    exec (.beat d last) s = .next
      { s with
        phase := if last then .hdr0 else .body,
        outputs := s.outputs ++ [(if s.codeOk then [.body d] else []) ++
          (if last then
            [.done (if s.codeOk then
              { status := .ok, isData := false, type := (unpack s.hdr).1, length := (unpack s.hdr).2, item := s.aux,
                seq := 0, seqPresent := false, sse := false }
            else
              { status := .invalidCode, isData := false, type := 0, length := 0, item := 0, seq := 0,
                seqPresent := false, sse := false })] else [])] }

/-- 10_state.md R17: how `PHASE` moves: 0 after a `last` beat, else one more, saturating at 4; every other port event
but `RESET` leaves it. -/
def Obligations.PhaseAdvancesAndSaturates : Prop :=
  ∀ (d : Byte) (last : Bool) (v : Half) (s : State),
    (∃ t, exec (.beat d last) s = .next t ∧
      t.phase.number.toNat = if last then 0 else min (s.phase.number.toNat + 1) 4) ∧
    (∃ t, exec (.cfgWrite v) s = .next t ∧ t.phase = s.phase) ∧
    (∃ t, exec .idle s = .next t ∧ t.phase = s.phase) ∧
    (∃ t, exec .reset s = .next t ∧ t.phase.number = 0)

/-! ### Whole frames -/

/-- 41_control_item.md R70, R72 to R75 and 44_frame_engine.md R112: each of the four control messages, presented at
`PHASE` = 0, completes: every record of every beat, every register after it, and nothing else changed. The frame's
type is the instruction's tag. The lists `outputs` and `input` are the model's own fields (log entries 1 and 2). That
the whole row of bytes is one instruction is the model's choice too (log entry 4). -/
def Obligations.ControlMessagesComplete : Prop :=
  ∀ (len : Len) (payload : List Byte) (s : State), s.phase = .hdr0 →
    ∀ (i : Instr) (t : Tag),
      (i, t) ∈ [(.setControlItem len payload, 0), (.currentControlItem len payload, 1),
        (.controlItemRange len payload, 2), (.ack len payload, 3)] →
    let item := le16 (payload.getD 0 0) (payload.getD 1 0)
    let known := decide (2 ≤ payload.length) && knownCode item
    let verdict : DoneRecord :=
      if payload.length < 2 then
        { status := .invalidShort, isData := false, type := 0, length := 0, item := 0, seq := 0, seqPresent := false,
          sse := false }
      else if known then
        { status := .ok, isData := false, type := t, length := len, item := item, seq := 0, seqPresent := false,
          sse := false }
      else
        { status := .invalidCode, isData := false, type := 0, length := 0, item := 0, seq := 0, seqPresent := false,
          sse := false }
    exec i s = .next
      { s with
        hdr := pack t len, bw := s.cfgBitwidth, acc := 0, gidx := 0, sse := false, codeOk := known, seqp := false,
        aux := match payload with
          | [] => s.aux
          | [x] => le16 x (highByte s.aux)
          | x :: y :: _ => le16 x y,
        phase := .hdr0,
        outputs := s.outputs ++ closeWith verdict
          ([[], [.hdr t len false]] ++
           (match payload with
            | [] => []
            | [_] => [[]]
            | _ :: _ :: body =>
              [[], [.aux false item known]] ++ body.map fun d => if known then [.body d] else [])) }

/-- 42_data_item.md R80 to R84, 43_sample_extractor.md R90, R91, R96 and R112: each of the four data messages,
presented at `PHASE` = 0, completes: every record of every beat, every register after it, and nothing else changed.
The samples are those of `EXTRACT(CFG_BITWIDTH, body)`, each at the beat of its group's last byte. The lists `outputs`
and `input` are the model's own fields (log entries 1 and 2). That the whole row of bytes is one instruction is the
model's choice too (log entry 4). -/
def Obligations.DataMessagesComplete : Prop :=
  ∀ (len : Len) (payload : List Byte) (s : State), s.phase = .hdr0 →
    ∀ (i : Instr) (t : Tag),
      (i, t) ∈ [(.dataItem0 len payload, 4), (.dataItem1 len payload, 5),
        (.dataItem2 len payload, 6), (.dataItem3 len payload, 7)] →
    let body := payload.drop 2
    let seq := le16 (payload.getD 0 0) (payload.getD 1 0)
    let present := decide (2 ≤ payload.length)
    let bad := !bwOk s.cfgBitwidth
    let g := s.cfgBitwidth.toNat / 8
    let samples := match extract s.cfgBitwidth body with | .ok l => l | .error _ => []
    exec i s = .next
      { s with
        hdr := pack t len, bw := s.cfgBitwidth, sse := bad, codeOk := false, seqp := present,
        acc := if bad then 0 else BitVec.ofNat 32 (le (body.drop (g * (body.length / g)))),
        gidx := if bad then 0 else BitVec.ofNat 2 (body.length % g),
        aux := match payload with
          | [] => s.aux
          | [x] => le16 x (highByte s.aux)
          | x :: y :: _ => le16 x y,
        phase := .hdr0,
        outputs := s.outputs ++ closeWith
          { status := .ok, isData := true, type := t, length := len, item := 0, seq := if present then seq else 0,
            seqPresent := present, sse := bad }
          ([[], [.hdr t len true] ++ if bad then [.sse] else []] ++
           (match payload with
            | [] => []
            | [_] => [[]]
            | _ :: _ :: _ =>
              [[], [.aux true seq true]] ++ (List.range body.length).map fun j =>
                [.body (body.getD j 0)] ++
                  if !bad && (j + 1) % g == 0 then [.smp (samples.getD (j / g) 0)] else [])) }

/-- 30_encoding.md R49, R59 with 44_frame_engine.md R107, R108: each of the six item codes, in its place (offset 2 of
a control-class frame), is known: `CODE_OK` is set, `Aux` shows the code as known, the parameters come out verbatim
and the frame is valid; every other register is unchanged. The lists `outputs` and `input` are the model's own fields
(log entries 1 and 2). That the whole row of bytes is one instruction is the model's choice too (log entry 4). -/
def Obligations.ItemCodesComplete : Prop :=
  ∀ (ps : List Byte) (s : State), s.phase = .aux0 → isData s.hdr = false →
    ∀ (i : Instr) (c : Half),
      (i, c) ∈ [(.noneItem ps, 0x0000), (.receiverState ps, 0x0018), (.receiverFrequency ps, 0x0020),
        (.rfFilter ps, 0x0044), (.adModes ps, 0x008A), (.iqOutputDataSampleRate ps, 0x00B8)] →
    exec i s = .next
      { s with
        aux := c, codeOk := true, phase := .hdr0,
        outputs := s.outputs ++ closeWith
          { status := .ok, isData := false, type := (unpack s.hdr).1, length := (unpack s.hdr).2, item := c, seq := 0,
            seqPresent := false, sse := false }
          ([[], [.aux false c true]] ++ ps.map fun d => [.body d]) }

/-- 43_sample_extractor.md R90, R92 to R96 with 44_frame_engine.md R108, R109: each of the four widths, in the body of
a data-class frame with `SSE` = 0, cuts the body into groups of its size, one sample for each complete group at the
beat of its last byte; the bytes `pre` of a group already begun count as the body's first. Only the group registers
and `PHASE` change. Its place asks also that `BW` be the row's width, where the rules say it. There is no premise on
`BW`: that a width row uses its own group size and not that of `BW` is the model's choice (log entry 5), and so is
that the whole body is one instruction (log entry 4). The lists `outputs` and `input` are the model's own fields (log
entries 1 and 2). -/
def Obligations.WidthsComplete : Prop :=
  ∀ (pre body : List Byte) (s : State),
    s.phase = .body → isData s.hdr = true → s.sse = false → body ≠ [] →
    ∀ (i : Instr) (g : Nat),
      (i, g) ∈ [(.width8 body, 1), (.width16 body, 2), (.width24 body, 3), (.width32 body, 4)] →
    pre.length < g → s.gidx = BitVec.ofNat 2 pre.length → s.acc = BitVec.ofNat 32 (le pre) →
    let all := pre ++ body
    exec i s = .next
      { s with
        acc := BitVec.ofNat 32 (le (all.drop (g * (all.length / g)))),
        gidx := BitVec.ofNat 2 (all.length % g),
        phase := .hdr0,
        outputs := s.outputs ++ closeWith
          { status := .ok, isData := true, type := (unpack s.hdr).1, length := (unpack s.hdr).2, item := 0,
            seq := if s.seqp then s.aux else 0, seqPresent := s.seqp, sse := false }
          ((List.range body.length).map fun j =>
            [.body (body.getD j 0)] ++
              if (pre.length + j + 1) % g = 0 then
                [.smp (BitVec.ofNat 32 (le ((all.drop (pre.length + j + 1 - g)).take g)))] else []) }

/-- 44_frame_engine.md R112, the refinement of the function layer by the engine: from any state with `PHASE` = 0, any
frame of at least one byte, with any `IDLE` and `CFG_WRITE` events after its first beat (a `CFG_WRITE` in a beat's
cycle too), gives at each beat exactly the records that the functions give, and nothing at any other event; then
`PHASE` = 0 and `CFG_BITWIDTH` is the last value written. The lists `outputs` and `input` are the model's own fields
(log entries 1 and 2). R112 the spec marks as its own inference, 'derived: from rules R104 to R110'. -/
def Obligations.EngineRefinesTheFunctions : Prop :=
  ∀ (s : State) (b : List Byte) (first : Instr) (rest : List Instr),
    s.phase = .hdr0 → b ≠ [] →
    (∀ i ∈ first :: rest, isPortEvent i = true ∧ i ≠ .reset) →
    beatsOf [first] ≠ [] → beatsOf (first :: rest) = framed b →
    ∃ t, runInstrs (first :: rest) s = .next t ∧
      t.outputs = s.outputs ++ spread (first :: rest) (frameRecords s.cfgBitwidth b) ∧
      t.phase = .hdr0 ∧ t.cfgBitwidth = lastCfg s.cfgBitwidth (first :: rest)

/-- R113, 10_state.md R21: frame independence. Two states at `PHASE` = 0 that agree on `CFG_BITWIDTH` emit the same
records for every row of instructions, and end in the same `PHASE` with the same `CFG_BITWIDTH`, whatever the other
registers held. The lists `outputs` and `input` are the model's own fields (log entries 1 and 2). R113 the spec marks
as its own inference, 'derived: from rules R104 to R108'. What a row outside its place does is the model's choice (log
entries 4 and 5). -/
def Obligations.FramesAreIndependentOfHistory : Prop :=
  ∀ (s₁ s₂ : State) (is : List Instr),
    s₁.phase = .hdr0 → s₂.phase = .hdr0 → s₁.cfgBitwidth = s₂.cfgBitwidth →
    ∃ t₁ t₂ new, runInstrs is s₁ = .next t₁ ∧ runInstrs is s₂ = .next t₂ ∧
      t₁.outputs = s₁.outputs ++ new ∧ t₂.outputs = s₂.outputs ++ new ∧
      t₁.phase = t₂.phase ∧ t₁.cfgBitwidth = t₂.cfgBitwidth

/-- 70_reset_and_hazards.md R153: without a `last` beat between them two messages are one frame: in the body of a
valid control frame every byte of the next message is a body byte, and the verdict is the first frame's. That the
second message's bytes are one instruction, executed outside its place, is the model's choice (log entries 4 and 5).
The lists `outputs` and `input` are the model's own fields (log entries 1 and 2). -/
def Obligations.MissingLastJoinsTwoMessages : Prop :=
  ∀ (len : Len) (payload : List Byte) (s : State),
    s.phase = .body → isData s.hdr = false → s.codeOk = true →
    ∀ (i : Instr) (t : Tag),
      (i, t) ∈ [(.setControlItem len payload, 0), (.currentControlItem len payload, 1),
        (.controlItemRange len payload, 2), (.ack len payload, 3), (.dataItem0 len payload, 4),
        (.dataItem1 len payload, 5), (.dataItem2 len payload, 6), (.dataItem3 len payload, 7)] →
    exec i s = .next
      { s with
        phase := .hdr0,
        outputs := s.outputs ++ closeWith
          { status := .ok, isData := false, type := (unpack s.hdr).1, length := (unpack s.hdr).2, item := s.aux,
            seq := 0, seqPresent := false, sse := false }
          ((lowByte (pack t len) :: highByte (pack t len) :: payload).map fun d => [.body d]) }

/-! ### Invariants -/

/-- 10_state.md R25 in the inductive form `State.Inv`: every step keeps it, from every state that meets it. R25 the
spec marks as its own inference, and this form of it is the model's. What one step executes is the model's choice (log
entries 3, 4 and 5). -/
def Obligations.EveryStepKeepsTheInvariant : Prop :=
  ∀ s t : State, s.Inv → step s = .next t → t.Inv

/-- The machine right after reset meets the invariant (R20, R25). The inductive form is the model's. -/
def Obligations.ResetMeetsTheInvariant : Prop := State.reset.Inv

/-- R25: its five clauses hold in every state that meets the inductive form. Clause (a) holds by the type of `PHASE`
(log entry 8). R25 the spec marks
as its own inference, and the inductive form is the model's. -/
def Obligations.InvariantGivesR25 : Prop := ∀ s : State, s.Inv → s.MeetsR25

/-- R25: its five clauses hold in every state reachable from reset, whatever the environment offers. The lists
`outputs` and `input` are the model's own fields (log entries 1 and 2). The spec marks it as its own inference,
'derived: from rule R20 and 44_frame_engine.md rules R104 to R109'. What one step executes is the model's choice (log
entries 3, 4 and 5); clause (a) holds by the type of `PHASE` (log entry 8). -/
def Obligations.ReachableStatesMeetR25 : Prop :=
  ∀ (n : Nat) (offered : List Stimulus) (t : State),
    Host.Core.run Sys2Proof.core n (State.reset.withInput offered) = Host.Outcome.next t → t.MeetsR25

/-! ### Whole-machine rules -/

/-- No condition and no input stops the machine, from any state. 60_exceptions.md R137, R138 say it of the conditions.
That no step ends in a fault or a refusal is the model's reading of them (log entry 16), and that a step with nothing
offered is an `IDLE` cycle is the model's choice (log entry 3). -/
def Obligations.EveryStateIsSafe : Prop := ∀ s : State, s.Safe

/-- 70_reset_and_hazards.md R159, 44_frame_engine.md R103: every offered beat is accepted, and adds one entry to the
outputs; a `last` beat gives exactly one `Done`, as its final record, and `PHASE` = 0; any other beat gives none. The
lists `outputs` and `input` are the model's own fields (log entries 1 and 2). R159 the spec marks as its own
inference, 'derived: from 44_frame_engine.md rules R103 and R111'. -/
def Obligations.LastBeatGivesExactlyOneDone : Prop :=
  ∀ (d : Byte) (last : Bool) (s : State), ∃ t rs,
    exec (.beat d last) s = .next t ∧ t.outputs = s.outputs ++ [rs] ∧
    (last = true → t.phase = .hdr0 ∧ ∃ rs' v, rs = rs' ++ [.done v] ∧ ∀ r ∈ rs', r.kind ≠ .done) ∧
    (last = false → t.phase ≠ .hdr0 ∧ ∀ r ∈ rs, r.kind ≠ .done)

/-- 44_frame_engine.md R114: the kinds of the records of one beat, in their order, are one of twelve combinations, and
each of the twelve occurs. The lists `outputs` and `input` are the model's own fields (log entries 1 and 2). R114 the
spec marks as its own inference, 'derived: from rules R104 to R108'. -/
def Obligations.RecordsOfABeatAreOneOfTwelve : Prop :=
  let shapes : List (List RecordKind) :=
    [[], [.done], [.hdr], [.hdr, .sse], [.hdr, .done], [.hdr, .sse, .done], [.aux], [.aux, .done], [.body],
     [.body, .smp], [.body, .done], [.body, .smp, .done]]
  (∀ (d : Byte) (last : Bool) (s : State), ∃ t rs, exec (.beat d last) s = .next t ∧
    t.outputs = s.outputs ++ [rs] ∧ rs.map Record.kind ∈ shapes) ∧
  (∀ ks ∈ shapes, ∃ (d : Byte) (last : Bool) (s t : State) (rs : List Record), s.Inv ∧
    exec (.beat d last) s = .next t ∧ t.outputs = s.outputs ++ [rs] ∧ rs.map Record.kind = ks)

/-- 60_exceptions.md R131, R132, R136 (b) and (c): in every `Done` record of every beat, `sse` = 1 stands only with a
valid data frame, and a frame that is not valid reports nothing but its status. The lists `outputs` and `input` are
the model's own fields (log entries 1 and 2). -/
def Obligations.VerdictsAreExclusive : Prop :=
  ∀ (d : Byte) (last : Bool) (s : State), ∃ t rs, exec (.beat d last) s = .next t ∧ t.outputs = s.outputs ++ [rs] ∧
    ∀ v : DoneRecord, Record.done v ∈ rs →
      (v.sse = true → v.status = .ok ∧ v.isData = true) ∧
      (v.status ≠ .ok → v = { status := v.status, isData := false, type := 0, length := 0, item := 0, seq := 0,
                              seqPresent := false, sse := false })

/-- 60_exceptions.md R133, 43_sample_extractor.md R91: in a state that meets the invariant a sample is emitted only in
the body of a data-class frame whose latched width is legal. The lists `outputs` and `input` are the model's own
fields (log entries 1 and 2). -/
def Obligations.SamplesNeedALegalWidth : Prop :=
  ∀ (d : Byte) (last : Bool) (s : State), s.Inv → ∃ t rs, exec (.beat d last) s = .next t ∧
    t.outputs = s.outputs ++ [rs] ∧
    ∀ v : Sample, Record.smp v ∈ rs →
      s.phase = .body ∧ isData s.hdr = true ∧ (s.bw = 8 ∨ s.bw = 16 ∨ s.bw = 24 ∨ s.bw = 32)

/-- 70_reset_and_hazards.md R159, 60_exceptions.md R141: the machine waits in its place for ever, emitting nothing; no
time-out ends the wait. R159 the spec marks as its own inference, 'derived: from 44_frame_engine.md rules R103 and
R111'. That a step with nothing offered is an `IDLE` cycle is the model's choice (log entry 3). The lists `outputs`
and `input` are the model's own fields (log entries 1 and 2). -/
def Obligations.IdleMachineWaitsForEver : Prop :=
  ∀ (n : Nat) (s : State), s.input = [] →
    Host.Core.run Sys2Proof.core n s = Host.Outcome.next { s with outputs := s.outputs ++ List.replicate n [] }

/-- 10_state.md R10, the column 'written by', for the port events: each register is written only by the events and at
the values of `PHASE` that the table lists. The lists `outputs` and `input` are the model's own fields (log entries 1
and 2). -/
def Obligations.RegistersAreWrittenOnlyAsListed : Prop :=
  ∀ (i : Instr) (s : State), isPortEvent i = true → i ≠ .reset → ∃ t, exec i s = .next t ∧
    (t.cfgBitwidth ≠ s.cfgBitwidth → ∃ v, i = .cfgWrite v ∨ ∃ d last, i = .beatCfg d last v) ∧
    (beatsOf [i] = [] → t = { s with cfgBitwidth := t.cfgBitwidth, outputs := s.outputs ++ [[]] }) ∧
    (t.hdr ≠ s.hdr → s.phase = .hdr0 ∨ s.phase = .hdr1) ∧
    (t.aux ≠ s.aux → s.phase = .aux0 ∨ s.phase = .aux1) ∧
    (t.bw ≠ s.bw → s.phase = .hdr0) ∧
    (t.acc ≠ s.acc ∨ t.gidx ≠ s.gidx → s.phase = .hdr0 ∨ s.phase = .body) ∧
    (t.sse ≠ s.sse → s.phase = .hdr0 ∨ s.phase = .hdr1) ∧
    (t.codeOk ≠ s.codeOk ∨ t.seqp ≠ s.seqp → s.phase = .hdr0 ∨ s.phase = .aux1) ∧
    t.input = s.input

/-- 44_frame_engine.md R102, R103, 70_reset_and_hazards.md R151: every instruction keeps what has been emitted and
what is still offered, and only `RESET`, `CFG_WRITE` and `BEAT_CFG` write `CFG_BITWIDTH`. The lists `outputs` and
`input` are the model's own fields (log entries 1 and 2). -/
def Obligations.EveryInstructionKeepsOutputsAndInput : Prop :=
  ∀ (i : Instr) (s : State), ∃ t new, exec i s = .next t ∧ t.outputs = s.outputs ++ new ∧ t.input = s.input ∧
    (t.cfgBitwidth ≠ s.cfgBitwidth → i = .reset ∨ ∃ v, i = .cfgWrite v ∨ ∃ d last, i = .beatCfg d last v)

/-- 44_frame_engine.md R115: the port view of one beat: each strobe is 1 exactly when the beat emitted that record and
then shows that record's fields; `cfg_rdata` is `CFG_BITWIDTH` and `in_ready` is 1. The lists `outputs` and `input`
are the model's own fields (log entries 1 and 2). -/
def Obligations.PortsShowTheRecordsOfTheBeat : Prop :=
  ∀ (d : Byte) (last : Bool) (s : State), ∃ t rs, exec (.beat d last) s = .next t ∧
    t.outputs = s.outputs ++ [rs] ∧
    let p := renderPorts s.cfgBitwidth rs
    p.cfgRdata = s.cfgBitwidth ∧ p.inReady = true ∧
    (∀ t len c, p.hdr = some (t, len, c) ↔ Record.hdr t len c ∈ rs) ∧
    (∀ q v k, p.aux = some (q, v, k) ↔ Record.aux q v k ∈ rs) ∧
    (p.sseStrobe = true ↔ Record.sse ∈ rs) ∧
    (∀ x, p.bodyData = some x ↔ Record.body x ∈ rs) ∧
    (∀ x, p.smpData = some x ↔ Record.smp x ∈ rs) ∧
    (∀ v, p.done = some v ↔ Record.done v ∈ rs)
end

