-- ==== Sys2Proof/Laws/Bytes.lean ====
section
/-! SUPPORT. The small laws of byte assembly (Operands.lean) and of the derived predicates (Flags.lean). -/

namespace Sys2Proof.Machine

theorem getLsbD_le16 (a b : Byte) (i : Nat) :
    (le16 a b).getLsbD i = if i < 8 then a.getLsbD i else b.getLsbD (i - 8) := by
  have h : (b ++ a : BitVec (8 + 8)).getLsbD i = if i < 8 then a.getLsbD i else b.getLsbD (i - 8) := by
    simp only [BitVec.getLsbD_append]
  exact h

@[simp] theorem lowByte_le16 (a b : Byte) : lowByte (le16 a b) = a := by
  apply BitVec.eq_of_getLsbD_eq
  intro i hi
  simp only [lowByte, BitVec.getLsbD_extractLsb', getLsbD_le16]
  simp [hi]

@[simp] theorem highByte_le16 (a b : Byte) : highByte (le16 a b) = b := by
  apply BitVec.eq_of_getLsbD_eq
  intro i hi
  simp only [highByte, BitVec.getLsbD_extractLsb', getLsbD_le16]
  simp [hi]

/-- The two bytes of a 16-bit value, assembled again, are the value. -/
@[simp] theorem le16_lowByte_highByte (v : Half) : le16 (lowByte v) (highByte v) = v := by
  apply BitVec.eq_of_getLsbD_eq
  intro i hi
  rw [getLsbD_le16]
  simp only [highByte, lowByte, BitVec.getLsbD_extractLsb']
  by_cases h : i < 8
  · simp [h]
  · simp [h, show 8 + (i - 8) = i by omega, show i - 8 < 8 by omega]

theorem toNat_le16 (a b : Byte) : (le16 a b).toNat = a.toNat + 256 * b.toNat := by
  have h : (b ++ a : BitVec (8 + 8)).toNat = a.toNat + 256 * b.toNat := by
    have ha := a.isLt
    rw [BitVec.toNat_append, Nat.shiftLeft_eq, Nat.mul_comm, ← Nat.two_pow_add_eq_or_of_lt ha]
    omega
  exact h

theorem getLsbD_pack (t : Tag) (len : Len) (i : Nat) :
    (pack t len).getLsbD i = if i < 13 then len.getLsbD i else t.getLsbD (i - 13) := by
  have h : (t ++ len : BitVec (3 + 13)).getLsbD i = if i < 13 then len.getLsbD i else t.getLsbD (i - 13) := by
    simp only [BitVec.getLsbD_append]
  exact h

theorem toNat_pack (t : Tag) (len : Len) : (pack t len).toNat = len.toNat + 8192 * t.toNat := by
  have h : (t ++ len : BitVec (3 + 13)).toNat = len.toNat + 8192 * t.toNat := by
    have hl := len.isLt
    rw [BitVec.toNat_append, Nat.shiftLeft_eq, Nat.mul_comm, ← Nat.two_pow_add_eq_or_of_lt hl]
    omega
  exact h

/-- The bit of the class is the top bit of the header's high byte (R36). -/
@[simp] theorem isData_le16 (a b : Byte) : isData (le16 a b) = b.getLsbD 7 := by
  simp only [isData, getLsbD_le16]
  simp

/-- A list of `n` bytes assembles to less than `256 ^ n`. -/
theorem le_lt (bs : List Byte) : le bs < 256 ^ bs.length := by
  induction bs with
  | nil => simp [le]
  | cons b bs ih =>
    have hb := b.isLt
    simp only [le, List.length_cons, Nat.pow_succ]
    omega

/-- Assembling a joined list: the second part counts from the first one's length. -/
theorem le_append (as bs : List Byte) : le (as ++ bs) = le as + 256 ^ as.length * le bs := by
  induction as with
  | nil => simp [le]
  | cons a as ih =>
    simp only [le, List.cons_append, List.length_cons, Nat.pow_succ, ih]
    ring

theorem bwOk_cases {w : Half} (h : bwOk w = true) : w = 8 ∨ w = 16 ∨ w = 24 ∨ w = 32 := by
  simpa [bwOk, or_assoc] using h

/-- The group size of a legal width is 1, 2, 3 or 4 (R19). -/
theorem gbytes_of_bwOk {w : Half} (h : bwOk w = true) :
    1 ≤ (gbytes w).toNat ∧ (gbytes w).toNat ≤ 4 ∧ (gbytes w).toNat = w.toNat / 8 := by
  rcases bwOk_cases h with rfl | rfl | rfl | rfl <;> decide

end Sys2Proof.Machine
end

