-- ==== Sys2Proof/Laws/State.lean ====
section
/-! SUPPORT. One lemma for each field of each named update of the state: later proofs unfold no record update. -/

namespace Sys2Proof.Machine

variable (s : State)

/-! ### writeCfg -/

@[simp] theorem State.writeCfg_cfgBitwidth (v : Half) : (s.writeCfg v).cfgBitwidth = v := rfl
@[simp] theorem State.writeCfg_hdr (v : Half) : (s.writeCfg v).hdr = s.hdr := rfl
@[simp] theorem State.writeCfg_aux (v : Half) : (s.writeCfg v).aux = s.aux := rfl
@[simp] theorem State.writeCfg_bw (v : Half) : (s.writeCfg v).bw = s.bw := rfl
@[simp] theorem State.writeCfg_acc (v : Half) : (s.writeCfg v).acc = s.acc := rfl
@[simp] theorem State.writeCfg_gidx (v : Half) : (s.writeCfg v).gidx = s.gidx := rfl
@[simp] theorem State.writeCfg_phase (v : Half) : (s.writeCfg v).phase = s.phase := rfl
@[simp] theorem State.writeCfg_sse (v : Half) : (s.writeCfg v).sse = s.sse := rfl
@[simp] theorem State.writeCfg_codeOk (v : Half) : (s.writeCfg v).codeOk = s.codeOk := rfl
@[simp] theorem State.writeCfg_seqp (v : Half) : (s.writeCfg v).seqp = s.seqp := rfl
@[simp] theorem State.writeCfg_input (v : Half) : (s.writeCfg v).input = s.input := rfl
@[simp] theorem State.writeCfg_outputs (v : Half) : (s.writeCfg v).outputs = s.outputs := rfl

/-! ### startFrame -/

@[simp] theorem State.startFrame_cfgBitwidth (d : Byte) : (s.startFrame d).cfgBitwidth = s.cfgBitwidth := rfl
@[simp] theorem State.startFrame_hdr (d : Byte) : (s.startFrame d).hdr = le16 d (highByte s.hdr) := rfl
@[simp] theorem State.startFrame_aux (d : Byte) : (s.startFrame d).aux = s.aux := rfl
@[simp] theorem State.startFrame_bw (d : Byte) : (s.startFrame d).bw = s.cfgBitwidth := rfl
@[simp] theorem State.startFrame_acc (d : Byte) : (s.startFrame d).acc = 0 := rfl
@[simp] theorem State.startFrame_gidx (d : Byte) : (s.startFrame d).gidx = 0 := rfl
@[simp] theorem State.startFrame_phase (d : Byte) : (s.startFrame d).phase = s.phase := rfl
@[simp] theorem State.startFrame_sse (d : Byte) : (s.startFrame d).sse = false := rfl
@[simp] theorem State.startFrame_codeOk (d : Byte) : (s.startFrame d).codeOk = false := rfl
@[simp] theorem State.startFrame_seqp (d : Byte) : (s.startFrame d).seqp = false := rfl
@[simp] theorem State.startFrame_input (d : Byte) : (s.startFrame d).input = s.input := rfl
@[simp] theorem State.startFrame_outputs (d : Byte) : (s.startFrame d).outputs = s.outputs := rfl

/-! ### writeHdrHigh -/

@[simp] theorem State.writeHdrHigh_cfgBitwidth (d : Byte) : (s.writeHdrHigh d).cfgBitwidth = s.cfgBitwidth := rfl
@[simp] theorem State.writeHdrHigh_hdr (d : Byte) : (s.writeHdrHigh d).hdr = le16 (lowByte s.hdr) d := rfl
@[simp] theorem State.writeHdrHigh_aux (d : Byte) : (s.writeHdrHigh d).aux = s.aux := rfl
@[simp] theorem State.writeHdrHigh_bw (d : Byte) : (s.writeHdrHigh d).bw = s.bw := rfl
@[simp] theorem State.writeHdrHigh_acc (d : Byte) : (s.writeHdrHigh d).acc = s.acc := rfl
@[simp] theorem State.writeHdrHigh_gidx (d : Byte) : (s.writeHdrHigh d).gidx = s.gidx := rfl
@[simp] theorem State.writeHdrHigh_phase (d : Byte) : (s.writeHdrHigh d).phase = s.phase := rfl
@[simp] theorem State.writeHdrHigh_sse (d : Byte) : (s.writeHdrHigh d).sse = s.sse := rfl
@[simp] theorem State.writeHdrHigh_codeOk (d : Byte) : (s.writeHdrHigh d).codeOk = s.codeOk := rfl
@[simp] theorem State.writeHdrHigh_seqp (d : Byte) : (s.writeHdrHigh d).seqp = s.seqp := rfl
@[simp] theorem State.writeHdrHigh_input (d : Byte) : (s.writeHdrHigh d).input = s.input := rfl
@[simp] theorem State.writeHdrHigh_outputs (d : Byte) : (s.writeHdrHigh d).outputs = s.outputs := rfl

/-! ### raiseSse -/

@[simp] theorem State.raiseSse_cfgBitwidth (b : Bool) : (s.raiseSse b).cfgBitwidth = s.cfgBitwidth := rfl
@[simp] theorem State.raiseSse_hdr (b : Bool) : (s.raiseSse b).hdr = s.hdr := rfl
@[simp] theorem State.raiseSse_aux (b : Bool) : (s.raiseSse b).aux = s.aux := rfl
@[simp] theorem State.raiseSse_bw (b : Bool) : (s.raiseSse b).bw = s.bw := rfl
@[simp] theorem State.raiseSse_acc (b : Bool) : (s.raiseSse b).acc = s.acc := rfl
@[simp] theorem State.raiseSse_gidx (b : Bool) : (s.raiseSse b).gidx = s.gidx := rfl
@[simp] theorem State.raiseSse_phase (b : Bool) : (s.raiseSse b).phase = s.phase := rfl
@[simp] theorem State.raiseSse_sse (b : Bool) : (s.raiseSse b).sse = (s.sse || b) := rfl
@[simp] theorem State.raiseSse_codeOk (b : Bool) : (s.raiseSse b).codeOk = s.codeOk := rfl
@[simp] theorem State.raiseSse_seqp (b : Bool) : (s.raiseSse b).seqp = s.seqp := rfl
@[simp] theorem State.raiseSse_input (b : Bool) : (s.raiseSse b).input = s.input := rfl
@[simp] theorem State.raiseSse_outputs (b : Bool) : (s.raiseSse b).outputs = s.outputs := rfl

/-! ### writeAuxLow -/

@[simp] theorem State.writeAuxLow_cfgBitwidth (d : Byte) : (s.writeAuxLow d).cfgBitwidth = s.cfgBitwidth := rfl
@[simp] theorem State.writeAuxLow_hdr (d : Byte) : (s.writeAuxLow d).hdr = s.hdr := rfl
@[simp] theorem State.writeAuxLow_aux (d : Byte) : (s.writeAuxLow d).aux = le16 d (highByte s.aux) := rfl
@[simp] theorem State.writeAuxLow_bw (d : Byte) : (s.writeAuxLow d).bw = s.bw := rfl
@[simp] theorem State.writeAuxLow_acc (d : Byte) : (s.writeAuxLow d).acc = s.acc := rfl
@[simp] theorem State.writeAuxLow_gidx (d : Byte) : (s.writeAuxLow d).gidx = s.gidx := rfl
@[simp] theorem State.writeAuxLow_phase (d : Byte) : (s.writeAuxLow d).phase = s.phase := rfl
@[simp] theorem State.writeAuxLow_sse (d : Byte) : (s.writeAuxLow d).sse = s.sse := rfl
@[simp] theorem State.writeAuxLow_codeOk (d : Byte) : (s.writeAuxLow d).codeOk = s.codeOk := rfl
@[simp] theorem State.writeAuxLow_seqp (d : Byte) : (s.writeAuxLow d).seqp = s.seqp := rfl
@[simp] theorem State.writeAuxLow_input (d : Byte) : (s.writeAuxLow d).input = s.input := rfl
@[simp] theorem State.writeAuxLow_outputs (d : Byte) : (s.writeAuxLow d).outputs = s.outputs := rfl

/-! ### writeAuxHigh -/

@[simp] theorem State.writeAuxHigh_cfgBitwidth (d : Byte) : (s.writeAuxHigh d).cfgBitwidth = s.cfgBitwidth := rfl
@[simp] theorem State.writeAuxHigh_hdr (d : Byte) : (s.writeAuxHigh d).hdr = s.hdr := rfl
@[simp] theorem State.writeAuxHigh_aux (d : Byte) : (s.writeAuxHigh d).aux = le16 (lowByte s.aux) d := rfl
@[simp] theorem State.writeAuxHigh_bw (d : Byte) : (s.writeAuxHigh d).bw = s.bw := rfl
@[simp] theorem State.writeAuxHigh_acc (d : Byte) : (s.writeAuxHigh d).acc = s.acc := rfl
@[simp] theorem State.writeAuxHigh_gidx (d : Byte) : (s.writeAuxHigh d).gidx = s.gidx := rfl
@[simp] theorem State.writeAuxHigh_phase (d : Byte) : (s.writeAuxHigh d).phase = s.phase := rfl
@[simp] theorem State.writeAuxHigh_sse (d : Byte) : (s.writeAuxHigh d).sse = s.sse := rfl
@[simp] theorem State.writeAuxHigh_codeOk (d : Byte) : (s.writeAuxHigh d).codeOk = s.codeOk := rfl
@[simp] theorem State.writeAuxHigh_seqp (d : Byte) : (s.writeAuxHigh d).seqp = s.seqp := rfl
@[simp] theorem State.writeAuxHigh_input (d : Byte) : (s.writeAuxHigh d).input = s.input := rfl
@[simp] theorem State.writeAuxHigh_outputs (d : Byte) : (s.writeAuxHigh d).outputs = s.outputs := rfl

/-! ### setSeqp -/

@[simp] theorem State.setSeqp_cfgBitwidth : (s.setSeqp).cfgBitwidth = s.cfgBitwidth := rfl
@[simp] theorem State.setSeqp_hdr : (s.setSeqp).hdr = s.hdr := rfl
@[simp] theorem State.setSeqp_aux : (s.setSeqp).aux = s.aux := rfl
@[simp] theorem State.setSeqp_bw : (s.setSeqp).bw = s.bw := rfl
@[simp] theorem State.setSeqp_acc : (s.setSeqp).acc = s.acc := rfl
@[simp] theorem State.setSeqp_gidx : (s.setSeqp).gidx = s.gidx := rfl
@[simp] theorem State.setSeqp_phase : (s.setSeqp).phase = s.phase := rfl
@[simp] theorem State.setSeqp_sse : (s.setSeqp).sse = s.sse := rfl
@[simp] theorem State.setSeqp_codeOk : (s.setSeqp).codeOk = s.codeOk := rfl
@[simp] theorem State.setSeqp_seqp : (s.setSeqp).seqp = true := rfl
@[simp] theorem State.setSeqp_input : (s.setSeqp).input = s.input := rfl
@[simp] theorem State.setSeqp_outputs : (s.setSeqp).outputs = s.outputs := rfl

/-! ### writeCodeOk -/

@[simp] theorem State.writeCodeOk_cfgBitwidth (b : Bool) : (s.writeCodeOk b).cfgBitwidth = s.cfgBitwidth := rfl
@[simp] theorem State.writeCodeOk_hdr (b : Bool) : (s.writeCodeOk b).hdr = s.hdr := rfl
@[simp] theorem State.writeCodeOk_aux (b : Bool) : (s.writeCodeOk b).aux = s.aux := rfl
@[simp] theorem State.writeCodeOk_bw (b : Bool) : (s.writeCodeOk b).bw = s.bw := rfl
@[simp] theorem State.writeCodeOk_acc (b : Bool) : (s.writeCodeOk b).acc = s.acc := rfl
@[simp] theorem State.writeCodeOk_gidx (b : Bool) : (s.writeCodeOk b).gidx = s.gidx := rfl
@[simp] theorem State.writeCodeOk_phase (b : Bool) : (s.writeCodeOk b).phase = s.phase := rfl
@[simp] theorem State.writeCodeOk_sse (b : Bool) : (s.writeCodeOk b).sse = s.sse := rfl
@[simp] theorem State.writeCodeOk_codeOk (b : Bool) : (s.writeCodeOk b).codeOk = b := rfl
@[simp] theorem State.writeCodeOk_seqp (b : Bool) : (s.writeCodeOk b).seqp = s.seqp := rfl
@[simp] theorem State.writeCodeOk_input (b : Bool) : (s.writeCodeOk b).input = s.input := rfl
@[simp] theorem State.writeCodeOk_outputs (b : Bool) : (s.writeCodeOk b).outputs = s.outputs := rfl

/-! ### writeGroup -/

@[simp] theorem State.writeGroup_cfgBitwidth (a : BitVec 32) (i : BitVec 2) : (s.writeGroup a i).cfgBitwidth = s.cfgBitwidth := rfl
@[simp] theorem State.writeGroup_hdr (a : BitVec 32) (i : BitVec 2) : (s.writeGroup a i).hdr = s.hdr := rfl
@[simp] theorem State.writeGroup_aux (a : BitVec 32) (i : BitVec 2) : (s.writeGroup a i).aux = s.aux := rfl
@[simp] theorem State.writeGroup_bw (a : BitVec 32) (i : BitVec 2) : (s.writeGroup a i).bw = s.bw := rfl
@[simp] theorem State.writeGroup_acc (a : BitVec 32) (i : BitVec 2) : (s.writeGroup a i).acc = a := rfl
@[simp] theorem State.writeGroup_gidx (a : BitVec 32) (i : BitVec 2) : (s.writeGroup a i).gidx = i := rfl
@[simp] theorem State.writeGroup_phase (a : BitVec 32) (i : BitVec 2) : (s.writeGroup a i).phase = s.phase := rfl
@[simp] theorem State.writeGroup_sse (a : BitVec 32) (i : BitVec 2) : (s.writeGroup a i).sse = s.sse := rfl
@[simp] theorem State.writeGroup_codeOk (a : BitVec 32) (i : BitVec 2) : (s.writeGroup a i).codeOk = s.codeOk := rfl
@[simp] theorem State.writeGroup_seqp (a : BitVec 32) (i : BitVec 2) : (s.writeGroup a i).seqp = s.seqp := rfl
@[simp] theorem State.writeGroup_input (a : BitVec 32) (i : BitVec 2) : (s.writeGroup a i).input = s.input := rfl
@[simp] theorem State.writeGroup_outputs (a : BitVec 32) (i : BitVec 2) : (s.writeGroup a i).outputs = s.outputs := rfl

/-! ### writePhase -/

@[simp] theorem State.writePhase_cfgBitwidth (p : Phase) : (s.writePhase p).cfgBitwidth = s.cfgBitwidth := rfl
@[simp] theorem State.writePhase_hdr (p : Phase) : (s.writePhase p).hdr = s.hdr := rfl
@[simp] theorem State.writePhase_aux (p : Phase) : (s.writePhase p).aux = s.aux := rfl
@[simp] theorem State.writePhase_bw (p : Phase) : (s.writePhase p).bw = s.bw := rfl
@[simp] theorem State.writePhase_acc (p : Phase) : (s.writePhase p).acc = s.acc := rfl
@[simp] theorem State.writePhase_gidx (p : Phase) : (s.writePhase p).gidx = s.gidx := rfl
@[simp] theorem State.writePhase_phase (p : Phase) : (s.writePhase p).phase = p := rfl
@[simp] theorem State.writePhase_sse (p : Phase) : (s.writePhase p).sse = s.sse := rfl
@[simp] theorem State.writePhase_codeOk (p : Phase) : (s.writePhase p).codeOk = s.codeOk := rfl
@[simp] theorem State.writePhase_seqp (p : Phase) : (s.writePhase p).seqp = s.seqp := rfl
@[simp] theorem State.writePhase_input (p : Phase) : (s.writePhase p).input = s.input := rfl
@[simp] theorem State.writePhase_outputs (p : Phase) : (s.writePhase p).outputs = s.outputs := rfl

/-! ### clearRegisters -/

@[simp] theorem State.clearRegisters_cfgBitwidth : (s.clearRegisters).cfgBitwidth = 0 := rfl
@[simp] theorem State.clearRegisters_hdr : (s.clearRegisters).hdr = 0 := rfl
@[simp] theorem State.clearRegisters_aux : (s.clearRegisters).aux = 0 := rfl
@[simp] theorem State.clearRegisters_bw : (s.clearRegisters).bw = 0 := rfl
@[simp] theorem State.clearRegisters_acc : (s.clearRegisters).acc = 0 := rfl
@[simp] theorem State.clearRegisters_gidx : (s.clearRegisters).gidx = 0 := rfl
@[simp] theorem State.clearRegisters_phase : (s.clearRegisters).phase = .hdr0 := rfl
@[simp] theorem State.clearRegisters_sse : (s.clearRegisters).sse = false := rfl
@[simp] theorem State.clearRegisters_codeOk : (s.clearRegisters).codeOk = false := rfl
@[simp] theorem State.clearRegisters_seqp : (s.clearRegisters).seqp = false := rfl
@[simp] theorem State.clearRegisters_input : (s.clearRegisters).input = s.input := rfl
@[simp] theorem State.clearRegisters_outputs : (s.clearRegisters).outputs = s.outputs := rfl

/-! ### emit -/

@[simp] theorem State.emit_cfgBitwidth (rs : List Record) : (s.emit rs).cfgBitwidth = s.cfgBitwidth := rfl
@[simp] theorem State.emit_hdr (rs : List Record) : (s.emit rs).hdr = s.hdr := rfl
@[simp] theorem State.emit_aux (rs : List Record) : (s.emit rs).aux = s.aux := rfl
@[simp] theorem State.emit_bw (rs : List Record) : (s.emit rs).bw = s.bw := rfl
@[simp] theorem State.emit_acc (rs : List Record) : (s.emit rs).acc = s.acc := rfl
@[simp] theorem State.emit_gidx (rs : List Record) : (s.emit rs).gidx = s.gidx := rfl
@[simp] theorem State.emit_phase (rs : List Record) : (s.emit rs).phase = s.phase := rfl
@[simp] theorem State.emit_sse (rs : List Record) : (s.emit rs).sse = s.sse := rfl
@[simp] theorem State.emit_codeOk (rs : List Record) : (s.emit rs).codeOk = s.codeOk := rfl
@[simp] theorem State.emit_seqp (rs : List Record) : (s.emit rs).seqp = s.seqp := rfl
@[simp] theorem State.emit_input (rs : List Record) : (s.emit rs).input = s.input := rfl
@[simp] theorem State.emit_outputs (rs : List Record) : (s.emit rs).outputs = s.outputs ++ [rs] := rfl

/-! ### advance -/

@[simp] theorem State.advance_cfgBitwidth (p : Phase) (rs : List Record) : (s.advance p rs).cfgBitwidth = s.cfgBitwidth := rfl
@[simp] theorem State.advance_hdr (p : Phase) (rs : List Record) : (s.advance p rs).hdr = s.hdr := rfl
@[simp] theorem State.advance_aux (p : Phase) (rs : List Record) : (s.advance p rs).aux = s.aux := rfl
@[simp] theorem State.advance_bw (p : Phase) (rs : List Record) : (s.advance p rs).bw = s.bw := rfl
@[simp] theorem State.advance_acc (p : Phase) (rs : List Record) : (s.advance p rs).acc = s.acc := rfl
@[simp] theorem State.advance_gidx (p : Phase) (rs : List Record) : (s.advance p rs).gidx = s.gidx := rfl
@[simp] theorem State.advance_phase (p : Phase) (rs : List Record) : (s.advance p rs).phase = p := rfl
@[simp] theorem State.advance_sse (p : Phase) (rs : List Record) : (s.advance p rs).sse = s.sse := rfl
@[simp] theorem State.advance_codeOk (p : Phase) (rs : List Record) : (s.advance p rs).codeOk = s.codeOk := rfl
@[simp] theorem State.advance_seqp (p : Phase) (rs : List Record) : (s.advance p rs).seqp = s.seqp := rfl
@[simp] theorem State.advance_input (p : Phase) (rs : List Record) : (s.advance p rs).input = s.input := rfl
@[simp] theorem State.advance_outputs (p : Phase) (rs : List Record) : (s.advance p rs).outputs = s.outputs ++ [rs] := rfl

/-! ### endFrame -/

@[simp] theorem State.endFrame_cfgBitwidth (rs : List Record) (v : DoneRecord) : (s.endFrame rs v).cfgBitwidth = s.cfgBitwidth := rfl
@[simp] theorem State.endFrame_hdr (rs : List Record) (v : DoneRecord) : (s.endFrame rs v).hdr = s.hdr := rfl
@[simp] theorem State.endFrame_aux (rs : List Record) (v : DoneRecord) : (s.endFrame rs v).aux = s.aux := rfl
@[simp] theorem State.endFrame_bw (rs : List Record) (v : DoneRecord) : (s.endFrame rs v).bw = s.bw := rfl
@[simp] theorem State.endFrame_acc (rs : List Record) (v : DoneRecord) : (s.endFrame rs v).acc = s.acc := rfl
@[simp] theorem State.endFrame_gidx (rs : List Record) (v : DoneRecord) : (s.endFrame rs v).gidx = s.gidx := rfl
@[simp] theorem State.endFrame_phase (rs : List Record) (v : DoneRecord) : (s.endFrame rs v).phase = .hdr0 := rfl
@[simp] theorem State.endFrame_sse (rs : List Record) (v : DoneRecord) : (s.endFrame rs v).sse = s.sse := rfl
@[simp] theorem State.endFrame_codeOk (rs : List Record) (v : DoneRecord) : (s.endFrame rs v).codeOk = s.codeOk := rfl
@[simp] theorem State.endFrame_seqp (rs : List Record) (v : DoneRecord) : (s.endFrame rs v).seqp = s.seqp := rfl
@[simp] theorem State.endFrame_input (rs : List Record) (v : DoneRecord) : (s.endFrame rs v).input = s.input := rfl
@[simp] theorem State.endFrame_outputs (rs : List Record) (v : DoneRecord) : (s.endFrame rs v).outputs = s.outputs ++ [rs ++ [.done v]] := rfl

/-! ### withInput -/

@[simp] theorem State.withInput_cfgBitwidth (m : List Stimulus) : (s.withInput m).cfgBitwidth = s.cfgBitwidth := rfl
@[simp] theorem State.withInput_hdr (m : List Stimulus) : (s.withInput m).hdr = s.hdr := rfl
@[simp] theorem State.withInput_aux (m : List Stimulus) : (s.withInput m).aux = s.aux := rfl
@[simp] theorem State.withInput_bw (m : List Stimulus) : (s.withInput m).bw = s.bw := rfl
@[simp] theorem State.withInput_acc (m : List Stimulus) : (s.withInput m).acc = s.acc := rfl
@[simp] theorem State.withInput_gidx (m : List Stimulus) : (s.withInput m).gidx = s.gidx := rfl
@[simp] theorem State.withInput_phase (m : List Stimulus) : (s.withInput m).phase = s.phase := rfl
@[simp] theorem State.withInput_sse (m : List Stimulus) : (s.withInput m).sse = s.sse := rfl
@[simp] theorem State.withInput_codeOk (m : List Stimulus) : (s.withInput m).codeOk = s.codeOk := rfl
@[simp] theorem State.withInput_seqp (m : List Stimulus) : (s.withInput m).seqp = s.seqp := rfl
@[simp] theorem State.withInput_input (m : List Stimulus) : (s.withInput m).input = m := rfl
@[simp] theorem State.withInput_outputs (m : List Stimulus) : (s.withInput m).outputs = s.outputs := rfl

end Sys2Proof.Machine
end

