-- ==== Sys2Proof/Laws/Engine.lean ====
section
/-! SUPPORT. What a beat can do, said once for each shared operation of Ops.lean, Engine.lean and Fetch.lean: which
position follows, what is never written, and how a row of bytes unfolds. -/

namespace Sys2Proof.Machine

/-! ### The dispatch on `PHASE` -/

theorem beatWith_hdr0 {s : State} (h : s.phase = .hdr0) (g : BitVec 3) (d : Byte) (last : Bool) :
    beatWith g d last s = beatHdr0 d last s := by simp [beatWith, h]

theorem beatWith_hdr1 {s : State} (h : s.phase = .hdr1) (g : BitVec 3) (d : Byte) (last : Bool) :
    beatWith g d last s = beatHdr1 d last s := by simp [beatWith, h]

theorem beatWith_aux0 {s : State} (h : s.phase = .aux0) (g : BitVec 3) (d : Byte) (last : Bool) :
    beatWith g d last s = beatAux0 d last s := by simp [beatWith, h]

theorem beatWith_aux1 {s : State} (h : s.phase = .aux1) (g : BitVec 3) (d : Byte) (last : Bool) :
    beatWith g d last s = beatAux1 d last s := by simp [beatWith, h]

theorem beatWith_body {s : State} (h : s.phase = .body) (g : BitVec 3) (d : Byte) (last : Bool) :
    beatWith g d last s = beatBody g d last s := by simp [beatWith, h]

/-! ### The deserializer step and the body byte -/

/-- `deser`: either the byte completes the group and the sample comes out, or it joins the group. -/
theorem deser_cases (g : BitVec 3) (d : Byte) (acc : BitVec 32) (gidx : BitVec 2) :
    (gidx.setWidth 3 + 1 = g ∧ deser g d acc gidx = (some (acc ||| (d.setWidth 32 <<< (8 * gidx.toNat))), 0, 0)) ∨
    (gidx.setWidth 3 + 1 ≠ g ∧
      deser g d acc gidx = (none, acc ||| (d.setWidth 32 <<< (8 * gidx.toNat)), gidx + 1)) := by
  by_cases h : gidx.setWidth 3 + 1 = g
  · exact .inl ⟨h, by simp only [deser, if_pos h]⟩
  · exact .inr ⟨h, by simp only [deser, if_neg h]⟩

/-- `bodyByte`: a byte of a data frame whose width is legal goes to the deserializer; every other body byte leaves
the registers alone. -/
theorem bodyByte_cases (g : BitVec 3) (d : Byte) (s : State) :
    (isData s.hdr = true ∧ s.sse = false ∧
      bodyByte g d s = (s.writeGroup (deser g d s.acc s.gidx).2.1 (deser g d s.acc s.gidx).2.2,
        .body d :: ((deser g d s.acc s.gidx).1.map Record.smp).toList)) ∨
    (isData s.hdr = true ∧ s.sse = true ∧ bodyByte g d s = (s, [.body d])) ∨
    (isData s.hdr = false ∧ s.codeOk = true ∧ bodyByte g d s = (s, [.body d])) ∨
    (isData s.hdr = false ∧ s.codeOk = false ∧ bodyByte g d s = (s, [])) := by
  cases hd : isData s.hdr <;> cases hs : s.sse <;> cases hc : s.codeOk <;>
    rcases deser_cases g d s.acc s.gidx with ⟨_, h⟩ | ⟨_, h⟩ <;> simp [bodyByte, hd, hs, hc, h]

/-- A body byte writes only the group. -/
theorem bodyByte_state (g : BitVec 3) (d : Byte) (s : State) :
    ∃ a i, (bodyByte g d s).1 = s.writeGroup a i := by
  rcases bodyByte_cases g d s with ⟨_, _, h⟩ | ⟨_, _, h⟩ | ⟨_, _, h⟩ | ⟨_, _, h⟩
  · exact ⟨_, _, by rw [h]⟩
  all_goals exact ⟨s.acc, s.gidx, by rw [h]; rfl⟩

/-! ### What no beat writes, and what every beat does -/

@[simp] theorem beatWith_cfgBitwidth (g : BitVec 3) (d : Byte) (last : Bool) (s : State) :
    (beatWith g d last s).cfgBitwidth = s.cfgBitwidth := by
  cases h : s.phase <;> cases last <;> simp [beatWith, h, beatHdr0, beatHdr1, beatAux0, beatAux1, beatBody]
  · split <;> simp
  · split <;> simp
  · obtain ⟨a, i, e⟩ := bodyByte_state g d s
    simp [e]
  · obtain ⟨a, i, e⟩ := bodyByte_state g d s
    simp [e]

@[simp] theorem beatWith_input (g : BitVec 3) (d : Byte) (last : Bool) (s : State) :
    (beatWith g d last s).input = s.input := by
  cases h : s.phase <;> cases last <;> simp [beatWith, h, beatHdr0, beatHdr1, beatAux0, beatAux1, beatBody]
  · split <;> simp
  · split <;> simp
  · obtain ⟨a, i, e⟩ := bodyByte_state g d s
    simp [e]
  · obtain ⟨a, i, e⟩ := bodyByte_state g d s
    simp [e]

/-- Every beat adds exactly one entry to the outputs. -/
theorem beatWith_outputs (g : BitVec 3) (d : Byte) (last : Bool) (s : State) :
    ∃ rs, (beatWith g d last s).outputs = s.outputs ++ [rs] := by
  cases h : s.phase <;> cases last <;> simp [beatWith, h, beatHdr0, beatHdr1, beatAux0, beatAux1, beatBody]
  · split <;> simp
  · split <;> simp
  · obtain ⟨a, i, e⟩ := bodyByte_state g d s
    simp [e]
  · obtain ⟨a, i, e⟩ := bodyByte_state g d s
    simp [e]

/-- The position after a beat that is not the frame's last. -/
def Phase.next : Phase → Phase
  | .hdr0 => .hdr1
  | .hdr1 => .aux0
  | .aux0 => .aux1
  | .aux1 => .body
  | .body => .body

theorem beatWith_phase (g : BitVec 3) (d : Byte) (last : Bool) (s : State) :
    (beatWith g d last s).phase = if last then .hdr0 else s.phase.next := by
  cases h : s.phase <;> cases last <;>
    simp [beatWith, h, beatHdr0, beatHdr1, beatAux0, beatAux1, beatBody, Phase.next]

@[simp] theorem beat_cfgBitwidth (d : Byte) (last : Bool) (s : State) :
    (beat d last s).cfgBitwidth = s.cfgBitwidth := beatWith_cfgBitwidth _ d last s

@[simp] theorem beat_input (d : Byte) (last : Bool) (s : State) : (beat d last s).input = s.input :=
  beatWith_input _ d last s

theorem beat_phase (d : Byte) (last : Bool) (s : State) :
    (beat d last s).phase = if last then .hdr0 else s.phase.next := beatWith_phase _ d last s

/-! ### Rows of bytes -/

@[simp] theorem present_nil (s : State) : present [] s = s := rfl

theorem present_cons (b : Byte) (bs : List Byte) (s : State) :
    present (b :: bs) s = present bs (beat b bs.isEmpty s) := rfl

@[simp] theorem presentWith_nil (g : BitVec 3) (s : State) : presentWith g [] s = s := rfl

theorem presentWith_cons (g : BitVec 3) (b : Byte) (bs : List Byte) (s : State) :
    presentWith g (b :: bs) s = presentWith g bs (beatWith g b bs.isEmpty s) := rfl

@[simp] theorem present_cfgBitwidth (bs : List Byte) (s : State) :
    (present bs s).cfgBitwidth = s.cfgBitwidth := by
  induction bs generalizing s with
  | nil => rfl
  | cons b bs ih => rw [present_cons, ih, beat_cfgBitwidth]

@[simp] theorem present_input (bs : List Byte) (s : State) : (present bs s).input = s.input := by
  induction bs generalizing s with
  | nil => rfl
  | cons b bs ih => rw [present_cons, ih, beat_input]

@[simp] theorem presentWith_cfgBitwidth (g : BitVec 3) (bs : List Byte) (s : State) :
    (presentWith g bs s).cfgBitwidth = s.cfgBitwidth := by
  induction bs generalizing s with
  | nil => rfl
  | cons b bs ih => rw [presentWith_cons, ih, beatWith_cfgBitwidth]

@[simp] theorem presentWith_input (g : BitVec 3) (bs : List Byte) (s : State) :
    (presentWith g bs s).input = s.input := by
  induction bs generalizing s with
  | nil => rfl
  | cons b bs ih => rw [presentWith_cons, ih, beatWith_input]

/-- A row of at least one byte ends the frame: the next beat is the first of a frame (R17). -/
theorem present_phase {bs : List Byte} (h : bs ≠ []) (s : State) : (present bs s).phase = .hdr0 := by
  induction bs generalizing s with
  | nil => exact absurd rfl h
  | cons b bs ih =>
    rw [present_cons]
    cases bs with
    | nil => simp [beat_phase]
    | cons c cs => exact ih (by simp) _

/-- A beat in the body does not change `BW`. -/
theorem beatBody_bw (g : BitVec 3) (d : Byte) (last : Bool) (s : State) :
    (beatBody g d last s).bw = s.bw := by
  obtain ⟨a, i, e⟩ := bodyByte_state g d s
  cases last <;> simp [beatBody, e]

/-- In the body of a frame, a row of bytes cut by the group size of `BW` is the row presented as plain beats: what a
`BITWIDTH16` instruction does where the step fetches it (R59). -/
theorem presentWith_gbytes {s : State} (h : s.phase = .body) (bs : List Byte) :
    presentWith (gbytes s.bw) bs s = present bs s := by
  induction bs generalizing s with
  | nil => rfl
  | cons b bs ih =>
    rw [presentWith_cons, present_cons, beat]
    cases bs with
    | nil => rfl
    | cons c cs =>
      have hp : (beatWith (gbytes s.bw) b false s).phase = .body := by simp [beatWith_phase, h, Phase.next]
      have hb : (beatWith (gbytes s.bw) b false s).bw = s.bw := by rw [beatWith_body h, beatBody_bw]
      simpa [hb] using ih hp

/-! ### Fetching -/

theorem fetch_empty {s : State} (h : s.input = []) : fetch s = (.idle, []) := by simp [fetch, h]

theorem fetch_cycle {s : State} {p : Pins} {more : List Stimulus} (h : s.input = .cycle p :: more) :
    fetch s = (decodePins p, more) := by simp [fetch, h]

theorem fetch_row {s : State} {b : Byte} {bs : List Byte} {more : List Stimulus} {i : Instr}
    (h : s.input = .frame b bs :: more) (hi : decodeFrame s (b :: bs) = some i) : fetch s = (i, more) := by
  simp [fetch, h, hi]

theorem fetch_beat {s : State} {b : Byte} {bs : List Byte} {more : List Stimulus}
    (h : s.input = .frame b bs :: more) (hi : decodeFrame s (b :: bs) = none) :
    fetch s = (.beat b bs.isEmpty, frameRest bs more) := by
  simp [fetch, h, hi]

end Sys2Proof.Machine
end

