-- ==== Sys2Proof/Laws/Frames.lean ====
section
/-! SUPPORT. What a row of body bytes does, said once for each of the three kinds of body, the deserializer step on a
group given by its bytes, and what the `Done` builders can answer. -/

namespace Sys2Proof.Machine

/-! ### The `Done` builders (44_frame_engine.md R110) -/

/-- `finishFull`: the valid data frame, the valid control frame, the unknown code. -/
theorem finishFull_cases (h a : Half) (seqp codeOk sse : Bool) :
    (isData h = true ∧ (finishFull h a seqp codeOk sse).status = .ok ∧
      (finishFull h a seqp codeOk sse).isData = true ∧ (finishFull h a seqp codeOk sse).sse = sse) ∨
    (isData h = false ∧ codeOk = true ∧ (finishFull h a seqp codeOk sse).status = .ok ∧
      (finishFull h a seqp codeOk sse).isData = false ∧ (finishFull h a seqp codeOk sse).sse = false) ∨
    (isData h = false ∧ codeOk = false ∧ finishFull h a seqp codeOk sse = doneInvalid .invalidCode) := by
  cases hd : isData h <;> cases codeOk <;> simp [finishFull, hd]

/-- `finishEarly`: the valid data frame without a sequence number, or too short. -/
theorem finishEarly_cases (h : Half) (sse : Bool) :
    (isData h = true ∧ finishEarly h sse = finishFull h 0x0000 false false sse) ∨
    (isData h = false ∧ finishEarly h sse = doneInvalid .invalidShort) := by
  cases hd : isData h <;> simp [finishEarly, hd]

/-! ### One group -/

/-- One more byte of a group assembled little-endian: OR and sum agree (R33, R94). -/
theorem le_or_shift (pre : List Byte) (d : Byte) (h : pre.length < 4) :
    BitVec.ofNat 32 (le pre) ||| (d.setWidth 32 <<< (8 * pre.length)) = BitVec.ofNat 32 (le (pre ++ [d])) := by
  have hl := le_lt pre
  have hd := d.isLt
  have e : (256:Nat) ^ pre.length = 2 ^ (8 * pre.length) := by
    rw [show (256:Nat) = 2^8 by norm_num, ← Nat.pow_mul]
  rw [e] at hl
  have hb : 2 ^ (8 * pre.length) * 256 ≤ 2 ^ 32 := by
    rw [show (256:Nat) = 2^8 by norm_num, ← Nat.pow_add]
    exact Nat.pow_le_pow_right (by norm_num) (by omega)
  have hdm : d.toNat * 2 ^ (8 * pre.length) < 2 ^ 32 := by nlinarith
  have hp : le pre < 2 ^ 32 := by nlinarith [Nat.pos_of_ne_zero (show 2 ^ (8*pre.length) ≠ 0 by positivity)]
  apply BitVec.eq_of_toNat_eq
  rw [le_append, e]
  simp only [BitVec.toNat_or, BitVec.toNat_ofNat, BitVec.toNat_shiftLeft, BitVec.toNat_setWidth, le, Nat.mul_zero,
    Nat.add_zero]
  rw [Nat.mod_eq_of_lt hp, Nat.mod_eq_of_lt (show d.toNat < 2^32 by omega), Nat.shiftLeft_eq, Nat.mod_eq_of_lt hdm]
  have := Nat.two_pow_add_eq_or_of_lt hl d.toNat
  rw [Nat.or_comm, Nat.mul_comm, ← this, Nat.mod_eq_of_lt, Nat.add_comm]
  nlinarith

/-- The comparison of `GIDX + 1` with the group size as numbers (R109). -/
theorem gidx_succ_eq_iff (i : BitVec 2) (g : BitVec 3) : (i.setWidth 3 + 1 = g) ↔ (i.toNat + 1 = g.toNat) := by
  revert i g; decide

/-- `deser` on a group whose bytes so far are `pre` (R109). -/
theorem deser_of_bytes (g : BitVec 3) (hg : 1 ≤ g.toNat ∧ g.toNat ≤ 4) (pre : List Byte)
    (hpre : pre.length < g.toNat) (d : Byte) :
    deser g d (BitVec.ofNat 32 (le pre)) (BitVec.ofNat 2 pre.length) =
      if pre.length + 1 = g.toNat then (some (BitVec.ofNat 32 (le (pre ++ [d]))), 0, 0)
      else (none, BitVec.ofNat 32 (le (pre ++ [d])), BitVec.ofNat 2 (pre.length + 1)) := by
  have h1 : (BitVec.ofNat 2 pre.length).toNat = pre.length := by
    simp only [BitVec.toNat_ofNat]; omega
  simp only [deser, gidx_succ_eq_iff, h1]
  rw [le_or_shift pre d (by omega)]
  split
  · rfl
  · have : BitVec.ofNat 2 pre.length + 1 = BitVec.ofNat 2 (pre.length + 1) := by
      apply BitVec.eq_of_toNat_eq; simp
    rw [this]

/-! ### Rows of body bytes -/

theorem closeWith_cons (v : DoneRecord) (rs : List Record) (more : List (List Record)) (h : more ≠ []) :
    closeWith v (rs :: more) = rs :: closeWith v more := by
  cases more with
  | nil => exact absurd rfl h
  | cons _ _ => rfl

/-- The body of a control-class frame (R108): the bytes if the code is known, nothing otherwise. -/
theorem present_controlBody (body : List Byte) (hb : body ≠ []) (s : State) (hp : s.phase = .body)
    (hd : isData s.hdr = false) :
    present body s = { s with
      phase := .hdr0
      outputs := s.outputs ++ closeWith (finishFull s.hdr s.aux s.seqp s.codeOk s.sse)
        (body.map fun d => if s.codeOk then [.body d] else []) } := by
  induction body generalizing s with
  | nil => exact absurd rfl hb
  | cons b bs ih =>
    have hbb : ∀ g, bodyByte g b s = (s, if s.codeOk then [.body b] else []) := by
      intro g; cases hc : s.codeOk <;> simp [bodyByte, hd, hc]
    rw [present_cons, beat, beatWith_body hp]
    cases bs with
    | nil =>
      simp only [beatBody, hbb, List.isEmpty_nil, if_true, present_nil]; rfl
    | cons c cs =>
      have e : beatBody (gbytes s.bw) b false s = s.advance .body (if s.codeOk then [.body b] else []) := by
        simp [beatBody, hbb]
      rw [List.isEmpty_cons, e, ih (by simp) _ (by simp) (by simpa using hd)]
      conv_rhs => rw [List.map_cons, closeWith_cons _ _ _ (by simp)]
      simp only [State.advance, State.emit, State.writePhase, List.append_assoc, List.singleton_append]
      rfl

/-- The body of a data-class frame under an illegal width (R108): bytes and no samples. -/
theorem present_sseBody (body : List Byte) (hb : body ≠ []) (s : State) (hp : s.phase = .body)
    (hd : isData s.hdr = true) (hs : s.sse = true) :
    present body s = { s with
      phase := .hdr0
      outputs := s.outputs ++ closeWith (finishFull s.hdr s.aux s.seqp s.codeOk s.sse)
        (body.map fun d => [.body d]) } := by
  induction body generalizing s with
  | nil => exact absurd rfl hb
  | cons b bs ih =>
    have hbb : ∀ g, bodyByte g b s = (s, [.body b]) := by
      intro g; simp [bodyByte, hd, hs]
    rw [present_cons, beat, beatWith_body hp]
    cases bs with
    | nil => simp only [beatBody, hbb, List.isEmpty_nil, if_true, present_nil]; rfl
    | cons c cs =>
      have e : beatBody (gbytes s.bw) b false s = s.advance .body [.body b] := by
        simp [beatBody, hbb]
      rw [List.isEmpty_cons, e, ih (by simp) _ (by simp) (by simpa using hd) (by simpa using hs)]
      conv_rhs => rw [List.map_cons, closeWith_cons _ _ _ (by simp)]
      simp only [State.advance, State.emit, State.writePhase, List.append_assoc, List.singleton_append]

/-- The sample records at byte `k` of the row `all` cut into groups of `g`. -/
def samplesAtByte (g : Nat) (all : List Byte) (k : Nat) : List Record :=
  if (k + 1) % g = 0 then [.smp (BitVec.ofNat 32 (le ((all.drop (k + 1 - g)).take g)))] else []

/-- The body of a data-class frame under a legal width (R108, R109): after the complete groups `whole` and the bytes
`pre` of a group already begun, the row `body` gives its bytes, and a sample at each group's last byte. -/
theorem presentWith_dataBody (g : BitVec 3) (hg : 1 ≤ g.toNat ∧ g.toNat ≤ 4) (whole pre body : List Byte)
    (hb : body ≠ []) (s : State)
    (hp : s.phase = .body) (hd : isData s.hdr = true) (hs : s.sse = false)
    (hw : whole.length % g.toNat = 0)
    (hpre : pre.length < g.toNat) (hi : s.gidx = BitVec.ofNat 2 pre.length) (ha : s.acc = BitVec.ofNat 32 (le pre)) :
    presentWith g body s = { s with
      acc := BitVec.ofNat 32 (le ((pre ++ body).drop (g.toNat * ((pre ++ body).length / g.toNat))))
      gidx := BitVec.ofNat 2 ((pre ++ body).length % g.toNat)
      phase := .hdr0
      outputs := s.outputs ++ closeWith (finishFull s.hdr s.aux s.seqp s.codeOk s.sse)
        ((List.range body.length).map fun j =>
          [.body (body.getD j 0)] ++ samplesAtByte g.toNat (whole ++ pre ++ body) (whole.length + pre.length + j)) } := by
  induction body generalizing s whole pre with
  | nil => exact absurd rfl hb
  | cons b bs ih =>
    have hds := deser_of_bytes g hg pre hpre b
    rw [← hi, ← ha] at hds
    rw [presentWith_cons, beatWith_body hp]
    by_cases hf : pre.length + 1 = g.toNat
    · rw [if_pos hf] at hds
      have hbb : bodyByte g b s = (s.writeGroup 0 0, [.body b, .smp (BitVec.ofNat 32 (le (pre ++ [b])))]) := by
        simp [bodyByte, hd, hs, hds]
      have hsmp : samplesAtByte g.toNat (whole ++ pre ++ (b::bs)) (whole.length + pre.length + 0) = [.smp (BitVec.ofNat 32 (le (pre ++ [b])))] := by
        have h0 : (whole.length + pre.length + 0 + 1) % g.toNat = 0 := by
          rw [show whole.length + pre.length + 0 + 1 = whole.length + g.toNat by omega, Nat.add_mod_right, hw]
        have h1 : whole.length + pre.length + 0 + 1 - g.toNat = whole.length := by omega
        simp only [samplesAtByte, h0, if_true, h1]
        rw [List.append_assoc, List.drop_left, ← List.singleton_append (x := b), ← List.append_assoc]
        rw [show g.toNat = (pre ++ [b]).length by simp; omega, List.take_left]
      cases bs with
      | nil =>
        simp only [beatBody, hbb, List.isEmpty_nil, if_true, presentWith_nil]
        have e1 : (pre ++ [b]).length / g.toNat = 1 := by
          rw [List.length_append, List.length_singleton, hf]; exact Nat.div_self (by omega)
        have e2 : (pre ++ [b]).length % g.toNat = 0 := by
          rw [List.length_append, List.length_singleton, hf]; exact Nat.mod_self _
        rw [e1, e2, Nat.mul_one, List.drop_of_length_le (by simp; omega)]
        simp only [List.length_singleton, List.range_one, List.map_cons, List.map_nil, hsmp, closeWith]
        rfl
      | cons c cs =>
        have e : beatBody g b false s = (s.writeGroup 0 0).advance .body [.body b, .smp (BitVec.ofNat 32 (le (pre ++ [b])))] := by
          simp [beatBody, hbb]
        have hwl : (whole ++ pre ++ [b]).length % g.toNat = 0 := by
          rw [List.length_append, List.length_append, List.length_singleton,
            show whole.length + pre.length + 1 = whole.length + g.toNat by omega, Nat.add_mod_right, hw]
        rw [List.isEmpty_cons, e, ih (whole ++ pre ++ [b]) [] (by simp) _ (by simp) (by simpa using hd)
          (by simpa using hs) hwl (by simp; omega) (by simp) (by simp [le])]
        have L : (pre ++ b :: c :: cs).length = g.toNat + (c::cs).length := by simp; omega
        have q : (pre ++ b :: c :: cs).length / g.toNat = (c::cs).length / g.toNat + 1 := by
          rw [L, Nat.add_div_left _ (by omega)]
        have r : (pre ++ b :: c :: cs).length % g.toNat = (c::cs).length % g.toNat := by
          rw [L, Nat.add_mod_left]
        have dr : (pre ++ b :: c :: cs).drop (g.toNat * ((c::cs).length / g.toNat + 1)) = (c::cs).drop (g.toNat * ((c::cs).length / g.toNat)) := by
          rw [Nat.mul_add, Nat.mul_one, Nat.add_comm, ← List.drop_drop]
          congr 1
          rw [← List.singleton_append (x := b), ← List.append_assoc, show g.toNat = (pre ++ [b]).length by simp; omega, List.drop_left]
        have Lr : (b :: c :: cs).length = (c::cs).length + 1 := rfl
        conv_rhs => rw [Lr, List.range_succ_eq_map, List.map_cons, List.map_map, closeWith_cons _ _ _ (by simp), hsmp]
        simp only [List.nil_append, q, r, dr]
        simp only [State.advance, State.emit, State.writePhase, State.writeGroup, List.append_assoc, List.singleton_append, List.getD_cons_zero]
        congr 5
        funext j
        simp only [Function.comp_apply, List.getD_cons_succ]
        simp [Nat.add_assoc, Nat.add_comm 1 j]
    · rw [if_neg hf] at hds
      have hbb : bodyByte g b s = (s.writeGroup (BitVec.ofNat 32 (le (pre ++ [b]))) (BitVec.ofNat 2 (pre.length + 1)), [.body b]) := by
        simp [bodyByte, hd, hs, hds]
      have hsmp : samplesAtByte g.toNat (whole ++ pre ++ (b::bs)) (whole.length + pre.length + 0) = [] := by
        have h0 : (whole.length + pre.length + 0 + 1) % g.toNat ≠ 0 := by
          rw [show whole.length + pre.length + 0 + 1 = whole.length + (pre.length + 1) by omega, Nat.add_mod, hw, Nat.zero_add, Nat.mod_mod, Nat.mod_eq_of_lt (by omega)]
          omega
        simp only [samplesAtByte, h0, if_false]
      cases bs with
      | nil =>
        simp only [beatBody, hbb, List.isEmpty_nil, if_true, presentWith_nil]
        have e1 : (pre ++ [b]).length / g.toNat = 0 := by
          rw [List.length_append, List.length_singleton]; exact Nat.div_eq_of_lt (by omega)
        have e2 : (pre ++ [b]).length % g.toNat = pre.length + 1 := by
          rw [List.length_append, List.length_singleton]; exact Nat.mod_eq_of_lt (by omega)
        rw [e1, e2, Nat.mul_zero, List.drop_zero]
        simp only [List.length_singleton, List.range_one, List.map_cons, List.map_nil, hsmp, closeWith]
        rfl
      | cons c cs =>
        have e : beatBody g b false s = (s.writeGroup (BitVec.ofNat 32 (le (pre ++ [b]))) (BitVec.ofNat 2 (pre.length + 1))).advance .body [.body b] := by
          simp [beatBody, hbb]
        rw [List.isEmpty_cons, e, ih whole (pre ++ [b]) (by simp) _ (by simp) (by simpa using hd)
          (by simpa using hs) hw (by simp; omega) (by simp) (by simp)]
        have Lr : (b :: c :: cs).length = (c::cs).length + 1 := rfl
        conv_rhs => rw [Lr, List.range_succ_eq_map, List.map_cons, List.map_map, closeWith_cons _ _ _ (by simp), hsmp]
        simp only [State.advance, State.emit, State.writePhase, State.writeGroup, List.append_assoc, List.singleton_append, List.getD_cons_zero]
        congr 5
        funext j
        simp only [Function.comp_apply, List.getD_cons_succ]
        simp [Nat.add_assoc, Nat.add_comm 1 j]

end Sys2Proof.Machine
end

