-- ==== Sys2Proof/Laws/PerInstr.lean ====
section
/-! SUPPORT. The family `MatchesRow`, one lemma for each instruction: the word of its encoding matches the `match` and
`mask` of its row of the opcode table (30_encoding.md R59). -/

namespace Sys2Proof.Laws.MatchesRow

open Sys2Proof.Machine

/-- The encoded word, masked as the instruction's row says, is the row's `match`. -/
def Statement (i : Instr) : Prop :=
  ∃ w, (encode i).tableWord = some w ∧ w &&& i.rowMask = i.rowMatch

/-- Masking a packed header leaves its tag. -/
theorem pack_and_typeMask (t : Tag) (len : Len) :
    (pack t len).toNat &&& 0xE000 = t.toNat * 8192 := by
  have h : pack t len &&& (0xE000#16) = pack t 0 := by
    apply BitVec.eq_of_getLsbD_eq
    intro i hi
    simp only [BitVec.getLsbD_and, getLsbD_pack]
    interval_cases i <;> simp
  have h2 := congrArg BitVec.toNat h
  rw [BitVec.toNat_and, toNat_pack t 0] at h2
  simpa [Nat.mul_comm] using h2

theorem message (m : MessageType) (len : Len) (payload : List Byte) :
    ∃ w, (Code.frame (messageBytes m len payload)).tableWord = some w ∧ w &&& 0xE000 = m.tag.toNat * 8192 := by
  refine ⟨(pack m.tag len).toNat, ?_, pack_and_typeMask _ _⟩
  simp [messageBytes, le16Bytes, Code.tableWord]

theorem item (c : ItemCode) (ps : List Byte) :
    ∃ w, (Code.item (itemBytes c ps)).tableWord = some w ∧ w &&& 0xFFFF = c.value.toNat := by
  refine ⟨c.value.toNat, ?_, by cases c <;> decide⟩
  simp [itemBytes, le16Bytes, Code.tableWord]

theorem setControlItem (len : Len) (p : List Byte) : Statement (.setControlItem len p) :=
  message .setControlItem len p
theorem currentControlItem (len : Len) (p : List Byte) : Statement (.currentControlItem len p) :=
  message .currentControlItem len p
theorem controlItemRange (len : Len) (p : List Byte) : Statement (.controlItemRange len p) :=
  message .controlItemRange len p
theorem ack (len : Len) (p : List Byte) : Statement (.ack len p) := message .ack len p
theorem dataItem0 (len : Len) (p : List Byte) : Statement (.dataItem0 len p) := message .dataItem0 len p
theorem dataItem1 (len : Len) (p : List Byte) : Statement (.dataItem1 len p) := message .dataItem1 len p
theorem dataItem2 (len : Len) (p : List Byte) : Statement (.dataItem2 len p) := message .dataItem2 len p
theorem dataItem3 (len : Len) (p : List Byte) : Statement (.dataItem3 len p) := message .dataItem3 len p
theorem noneItem (ps : List Byte) : Statement (.noneItem ps) := item .noneItem ps
theorem receiverState (ps : List Byte) : Statement (.receiverState ps) := item .receiverState ps
theorem receiverFrequency (ps : List Byte) : Statement (.receiverFrequency ps) := item .receiverFrequency ps
theorem rfFilter (ps : List Byte) : Statement (.rfFilter ps) := item .rfFilter ps
theorem adModes (ps : List Byte) : Statement (.adModes ps) := item .adModes ps
theorem iqOutputDataSampleRate (ps : List Byte) : Statement (.iqOutputDataSampleRate ps) :=
  item .iqOutputDataSampleRate ps
theorem width8 (body : List Byte) : Statement (.width8 body) := ⟨8, rfl, by simp [Instr.rowMask, Instr.rowMatch]⟩
theorem width16 (body : List Byte) : Statement (.width16 body) := ⟨16, rfl, by simp [Instr.rowMask, Instr.rowMatch]⟩
theorem width24 (body : List Byte) : Statement (.width24 body) := ⟨24, rfl, by simp [Instr.rowMask, Instr.rowMatch]⟩
theorem width32 (body : List Byte) : Statement (.width32 body) := ⟨32, rfl, by simp [Instr.rowMask, Instr.rowMatch]⟩
theorem reset : Statement .reset := ⟨4, rfl, rfl⟩
theorem cfgWrite (v : Half) : Statement (.cfgWrite v) := ⟨2, rfl, by simp [Instr.rowMask, Instr.rowMatch]⟩
theorem beat (d : Byte) (last : Bool) : Statement (.beat d last) := ⟨1, rfl, by simp [Instr.rowMask, Instr.rowMatch]⟩
theorem beatCfg (d : Byte) (last : Bool) (v : Half) : Statement (.beatCfg d last v) := ⟨3, rfl, by simp [Instr.rowMask, Instr.rowMatch]⟩
theorem idle : Statement .idle := ⟨0, rfl, rfl⟩

end Sys2Proof.Laws.MatchesRow
end

