-- ==== Sys2Proof/Tests/Slice0.lean ====
section
/-! SUPPORT. The model's own tests: the smoke test of WellFormed, words written out from the encoding tables of
spec/30_encoding.md, one step of each instruction with the results of spec/95_test_vectors.md, and a witness for every
statement of Obligations.lean that has hypotheses. -/

namespace Sys2Proof.Tests

open Sys2Proof Sys2Proof.Machine

/-- The next state of an outcome, if it is one. -/
def next? : Host.Outcome State Fault Refusal → Option State
  | .next t => some t
  | _ => none

/-- A state at a given place of a frame, with nothing offered and nothing emitted. -/
def here (phase : Phase) (hdr aux bw : Half) : State :=
  { State.reset with phase := phase, hdr := hdr, aux := aux, bw := bw }

/-- What an instruction emits, all records in one list. -/
def emitted (i : Instr) (s : State) : Option (List Record) := (next? (exec i s)).map fun t => t.outputs.flatten

/-- `Done(OK, 0, ...)`. -/
def okControl (t : Tag) (len : Len) (item : Half) : Record :=
  .done { status := .ok, isData := false, type := t, length := len, item := item, seq := 0, seqPresent := false,
          sse := false }

/-- `Done(OK, 1, ...)`. -/
def okData (t : Tag) (len : Len) (sequence : Half) (present sse : Bool) : Record :=
  .done { status := .ok, isData := true, type := t, length := len, item := 0, seq := sequence, seqPresent := present,
          sse := sse }

/-- `Done(st, ...zeros)`. -/
def invalid (st : Status) : Record :=
  .done { status := st, isData := false, type := 0, length := 0, item := 0, seq := 0, seqPresent := false, sse := false }

/-! ### WellFormed refuses each ill-formed term (20_memory.md R30) -/

theorem test_wellFormed_refuses_empty_body8 : (Instr.width8 []).wellFormed = false := by decide
theorem test_wellFormed_refuses_empty_body16 : (Instr.width16 []).wellFormed = false := by decide
theorem test_wellFormed_refuses_empty_body24 : (Instr.width24 []).wellFormed = false := by decide
theorem test_wellFormed_refuses_empty_body32 : (Instr.width32 []).wellFormed = false := by decide
theorem test_wellFormed_accepts_one_byte : (Instr.width32 [0x00]).wellFormed = true := by decide

/-! ### Decoding, words written bit by bit from R45, R46 (type in bits 7 to 5 of the second byte) -/

theorem test_decode_setControlItem :
    (decode (.frame [0b00001010, 0b00000000])).toOption = some (.setControlItem 10 []) := by decide
theorem test_decode_currentControlItem :
    (decode (.frame [0b00000100, 0b00100000, 0x20, 0x00])).toOption = some (.currentControlItem 4 [0x20, 0x00]) := by decide
theorem test_decode_controlItemRange :
    (decode (.frame [0b00000100, 0b01000000])).toOption = some (.controlItemRange 4 []) := by decide
theorem test_decode_ack : (decode (.frame [0b00000100, 0b01100000])).toOption = some (.ack 4 []) := by decide
theorem test_decode_dataItem0 :
    (decode (.frame [0b00000100, 0b10000100])).toOption = some (.dataItem0 1028 []) := by decide
theorem test_decode_dataItem1 :
    (decode (.frame [0b11001101, 0b10101011])).toOption = some (.dataItem1 3021 []) := by decide
theorem test_decode_dataItem2 : (decode (.frame [0b00000100, 0b11000000])).toOption = some (.dataItem2 4 []) := by decide
theorem test_decode_dataItem3 :
    (decode (.frame [0b11111111, 0b11111111])).toOption = some (.dataItem3 8191 []) := by decide

/-! R49: the code's low byte first. -/

theorem test_decode_noneItem : (decode (.item [0b00000000, 0b00000000])).toOption = some (.noneItem []) := by decide
theorem test_decode_receiverState :
    (decode (.item [0b00011000, 0b00000000, 0x80])).toOption = some (.receiverState [0x80]) := by decide
theorem test_decode_receiverFrequency :
    (decode (.item [0b00100000, 0b00000000])).toOption = some (.receiverFrequency []) := by decide
theorem test_decode_rfFilter : (decode (.item [0b01000100, 0b00000000])).toOption = some (.rfFilter []) := by decide
theorem test_decode_adModes : (decode (.item [0b10001010, 0b00000000])).toOption = some (.adModes []) := by decide
theorem test_decode_iqOutputDataSampleRate :
    (decode (.item [0b10111000, 0b00000000])).toOption = some (.iqOutputDataSampleRate []) := by decide
theorem test_decode_swapped_code_is_unknown :
    decode (.item [0b00000000, 0b00011000]) = .error (.unknownItemCode 0x1800) := by rfl

/-! R51 and R56. -/

theorem test_decode_width8 : (decode (.body 0b0000000000001000 [1])).toOption = some (.width8 [1]) := by decide
theorem test_decode_width16 : (decode (.body 0b0000000000010000 [1])).toOption = some (.width16 [1]) := by decide
theorem test_decode_width24 : (decode (.body 0b0000000000011000 [1])).toOption = some (.width24 [1]) := by decide
theorem test_decode_width32 : (decode (.body 0b0000000000100000 [1])).toOption = some (.width32 [1]) := by decide
theorem test_decode_width264_is_illegal : decode (.body 0x0108 [1]) = .error (.illegalWidth 0x0108) := by rfl
theorem test_decode_reset : decodePins { ctl := 0b100, inData := 7, inLast := true, cfgWdata := 9 } = .reset := by decide
theorem test_decode_cfgWrite :
    decodePins { ctl := 0b010, inData := 7, inLast := true, cfgWdata := 9 } = .cfgWrite 9 := by decide
theorem test_decode_beat : decodePins { ctl := 0b001, inData := 7, inLast := true, cfgWdata := 9 } = .beat 7 true := by decide
theorem test_decode_beatCfg :
    decodePins { ctl := 0b011, inData := 7, inLast := true, cfgWdata := 9 } = .beatCfg 7 true 9 := by decide
theorem test_decode_idle : decodePins { ctl := 0b000, inData := 7, inLast := true, cfgWdata := 9 } = .idle := by decide

/-! The bare words of the table, and where the next step fetches them (log entries 6 and 7). -/

theorem test_tableWord_header : decodeTableWord 16 0x6004 = some (.ack 4 []) := by decide
theorem test_tableWord_item : decodeTableWord 16 0x0044 = some (.rfFilter []) := by decide
theorem test_tableWord_width : decodeTableWord 16 0x0010 = some (.width16 [0]) := by decide
theorem test_tableWord_pins : decodeTableWord 8 0x3 = some (.beatCfg 0 false 0) := by decide
theorem test_fetch_header : (fetch (State.reset.withFetchWord 16 0x6004)).1 = .ack 4 [] := by decide
theorem test_fetch_item : (fetch (State.reset.withFetchWord 16 0x0044)).1 = .rfFilter [] := by decide
theorem test_fetch_width : (fetch (State.reset.withFetchWord 16 0x0010)).1 = .width16 [0] := by decide
theorem test_fetch_pins : (fetch (State.reset.withFetchWord 8 0x4)).1 = .reset := by decide

/-! ### The function layer (95_test_vectors.md sections 2.1 to 2.4) -/

theorem test_unpack : unpack 0xABCD = (5, 3021) := by decide
theorem test_pack : pack 3 4 = 0x6004 := by decide
theorem test_parseControl : (parseControl [0x06, 0x40, 0x8A, 0x00, 0x00, 0x03]).toOption =
    some { type := 2, item := 0x008A, seq := 0, body := [0x00, 0x03] } := by decide
theorem test_parseControl_short_first : parseControl [0x04, 0x00, 0x99] = .error (.invalidFrame .tooShort) := by rfl
theorem test_parseData : (parseData [0x05, 0xA0, 0xFF, 0xFF, 0x7E]).toOption =
    some { type := 5, seq := 0xFFFF, seqPresent := true, body := [0x7E] } := by decide
theorem test_parseData_three_bytes : (parseData [0x03, 0x80, 0x55]).toOption =
    some { type := 4, seq := 0, seqPresent := false, body := [] } := by decide
theorem test_buildControl : (buildControl 1 0x0020 []).toOption = some [0x04, 0x20, 0x20, 0x00] := by decide
theorem test_buildData : buildData 4 [0x01, 0x00, 0x34] = [0x05, 0x80, 0x01, 0x00, 0x34] := by decide
theorem test_extract8 : (extract 8 [0xFF, 0x00, 0x80]).toOption = some [255, 0, 128] := by decide
theorem test_extract16 : (extract 16 [0x01, 0x02, 0x03]).toOption = some [513] := by decide
theorem test_extract24 : (extract 24 [0x11, 0x22, 0x33, 0x44, 0x55, 0x66, 0x77]).toOption =
    some [0x332211, 0x665544] := by decide
theorem test_extract32 : (extract 32 [0xEF, 0xBE, 0xAD, 0xDE, 0xFF, 0xFF, 0xFF, 0xFF, 1, 2, 3]).toOption =
    some [0xDEADBEEF, 0xFFFFFFFF] := by decide
theorem test_extract_illegal_and_empty : extract 40 [] = .error .sampleSizeOutOfRange := by rfl

/-! ### The message types (95_test_vectors.md section 3, and the examples of R73, R74, R107) -/

/-- Program P1. -/
theorem test_setControlItem :
    emitted (.setControlItem 10 [0x20, 0x00, 0x00, 0x80, 0xC6, 0x13, 0x00, 0x00]) State.reset =
      some [.hdr 0 10 false, .aux false 0x0020 true, .body 0x00, .body 0x80, .body 0xC6, .body 0x13, .body 0x00,
        .body 0x00, okControl 0 10 0x0020] := by decide
/-- Program P3, frame 2. -/
theorem test_setControlItem_unknown_code :
    emitted (.setControlItem 6 [0x99, 0x00, 0xAA, 0xBB]) State.reset =
      some [.hdr 0 6 false, .aux false 0x0099 false, invalid .invalidCode] := by decide
theorem test_currentControlItem : emitted (.currentControlItem 4 [0x20, 0x00]) State.reset =
    some [.hdr 1 4 false, .aux false 0x0020 true, okControl 1 4 0x0020] := by decide
theorem test_controlItemRange : emitted (.controlItemRange 5 [0x44, 0x00, 0x00]) State.reset =
    some [.hdr 2 5 false, .aux false 0x0044 true, .body 0x00, okControl 2 5 0x0044] := by decide
theorem test_ack : emitted (.ack 4 [0x00, 0x00]) State.reset =
    some [.hdr 3 4 false, .aux false 0x0000 true, okControl 3 4 0x0000] := by decide
/-- Program P3, frame 3. -/
theorem test_ack_too_short : emitted (.ack 3 [0x00]) State.reset = some [.hdr 3 3 false, invalid .invalidShort] := by decide
/-- Program P2. -/
theorem test_dataItem0 :
    emitted (.dataItem0 10 [0x07, 0x00, 0x34, 0x12, 0xFF, 0xFF, 0x00, 0x80]) { State.reset with cfgBitwidth := 16 } =
      some [.hdr 4 10 true, .aux true 0x0007 true, .body 0x34, .body 0x12, .smp 0x1234, .body 0xFF, .body 0xFF,
        .smp 0xFFFF, .body 0x00, .body 0x80, .smp 0x8000, okData 4 10 0x0007 true false] := by decide
/-- Program P4, frame 2. -/
theorem test_dataItem0_empty_under_width_40 : emitted (.dataItem0 2 []) { State.reset with cfgBitwidth := 40 } =
    some [.hdr 4 2 true, .sse, okData 4 2 0 false true] := by decide
/-- Program P4, frame 3. -/
theorem test_dataItem1 : emitted (.dataItem1 7 [0xFF, 0xFF, 0x07, 0x09, 0xFF]) { State.reset with cfgBitwidth := 8 } =
    some [.hdr 5 7 true, .aux true 0xFFFF true, .body 0x07, .smp 7, .body 0x09, .smp 9, .body 0xFF, .smp 255,
      okData 5 7 0xFFFF true false] := by decide
/-- Program P3, frame 4: the end state. -/
theorem test_dataItem2 : (next? (exec (.dataItem2 11 [0x02, 0x00, 0x11, 0x22, 0x33, 0x44, 0x55, 0x66, 0x77])
      { State.reset with cfgBitwidth := 24 })).map
        (fun t => (t.hdr, t.acc, t.gidx, t.outputs.flatten.filterMap Record.smp?)) =
    some (0xC00B, 0x77, 1, [0x332211, 0x665544]) := by decide
/-- Program P5, frame 1. -/
theorem test_dataItem3 : emitted (.dataItem3 3 [0x55]) { State.reset with cfgBitwidth := 32 } =
    some [.hdr 7 3 true, okData 7 3 0 false false] := by decide
/-- Program P5, frame 3: the sample comes at beat 7, and the three trailing bytes stay in `ACC`. -/
theorem test_dataItem3_trailing_bytes :
    (next? (exec (.dataItem3 11 [0x03, 0x00, 0xEF, 0xBE, 0xAD, 0xDE, 0x01, 0x02, 0x03])
      { State.reset with cfgBitwidth := 32 })).map (fun t => (t.outputs[7]?, t.acc, t.gidx)) =
    some (some [.body 0xDE, .smp 0xDEADBEEF], 0x00030201, 3) := by decide

/-! ### The item codes, from offset 2 of the frames of 95_test_vectors.md section 2.2 -/

theorem test_noneItem : emitted (.noneItem []) (here .aux0 0x6004 0 0) =
    some [.aux false 0x0000 true, okControl 3 4 0x0000] := by decide
theorem test_receiverState : emitted (.receiverState [0x80, 0x02, 0x00, 0x00]) (here .aux0 0x0008 0 0) =
    some [.aux false 0x0018 true, .body 0x80, .body 0x02, .body 0x00, .body 0x00, okControl 0 8 0x0018] := by decide
theorem test_receiverFrequency : emitted (.receiverFrequency [0xAA]) (here .aux0 0x0000 0 0) =
    some [.aux false 0x0020 true, .body 0xAA, okControl 0 0 0x0020] := by decide
theorem test_rfFilter : emitted (.rfFilter [0x01]) (here .aux0 0x2005 0 0) =
    some [.aux false 0x0044 true, .body 0x01, okControl 1 5 0x0044] := by decide
theorem test_adModes : emitted (.adModes [0x00, 0x03]) (here .aux0 0x4006 0 0) =
    some [.aux false 0x008A true, .body 0x00, .body 0x03, okControl 2 6 0x008A] := by decide
theorem test_iqOutputDataSampleRate :
    emitted (.iqOutputDataSampleRate [0x00, 0x20, 0xA1, 0x07, 0x00]) (here .aux0 0x6009 0 0) =
      some [.aux false 0x00B8 true, .body 0x00, .body 0x20, .body 0xA1, .body 0x07, .body 0x00,
        okControl 3 9 0x00B8] := by decide

/-! ### The widths, on the bodies of 95_test_vectors.md section 2.4 -/

/-- The samples of a body presented in the body of a data frame. -/
def samplesOf (i : Instr) (bw : Half) : Option (List Sample) :=
  (emitted i (here .body 0xC00B 2 bw)).map fun rs => rs.filterMap Record.smp?

theorem test_width8 : samplesOf (.width8 [0xFF, 0x00, 0x80]) 8 = some [255, 0, 128] := by decide
theorem test_width16 : samplesOf (.width16 [0x34, 0x12, 0xFF, 0xFF, 0x00]) 16 = some [0x1234, 0xFFFF] := by decide
theorem test_width24 : samplesOf (.width24 [0x11, 0x22, 0x33, 0x44, 0x55, 0x66, 0x77]) 24 =
    some [0x332211, 0x665544] := by decide
theorem test_width32 : samplesOf (.width32 [0x01, 0, 0, 0, 0xFF, 0, 0, 0]) 32 = some [1, 255] := by decide

/-! ### The port events (95_test_vectors.md section 2.5) -/

theorem test_reset_keeps_only_the_environment :
    next? (exec .reset (here .aux1 0x0006 0x99 16)) = some { State.reset with outputs := [[]] } := by decide
theorem test_cfgWrite_in_a_frame :
    (next? (exec (.cfgWrite 8) { here .aux0 0x0006 0 16 with cfgBitwidth := 16 })).map
      (fun t => (t.cfgBitwidth, t.bw, t.phase, t.outputs)) = some (8, 16, .aux0, [[]]) := by decide
theorem test_beat_completes_a_group :
    (next? (exec (.beat 0x33 false) { here .body 0xC00B 2 24 with acc := 0x2211, gidx := 2, seqp := true })).map
      (fun t => (t.acc, t.gidx, t.outputs)) = some (0, 0, [[.body 0x33, .smp 0x332211]]) := by decide
theorem test_beat_hdr1_reports_illegal_width :
    (next? (exec (.beat 0x80 true) (here .hdr1 0x0002 0 40))).map (fun t => (t.phase, t.hdr, t.sse, t.outputs)) =
      some (.hdr0, 0x8002, true, [[.hdr 4 2 true, .sse, okData 4 2 0 false true]]) := by decide
theorem test_beatCfg_reads_the_old_width :
    (next? (exec (.beatCfg 0x0A false 8) { State.reset with cfgBitwidth := 16 })).map
      (fun t => (t.cfgBitwidth, t.bw, t.phase)) = some (8, 16, .hdr1) := by decide
theorem test_idle : next? (exec .idle (here .aux1 1 2 3)) = some { here .aux1 1 2 3 with outputs := [[]] } := by decide

/-! ### One step on a `frame` line and on a row of beats -/

theorem test_step_frame_line : next? (step { State.reset with input := [.frame 0x04 [0x60, 0x00, 0x00]] }) =
    next? (exec (.ack 4 [0x00, 0x00]) State.reset) := by decide
theorem test_step_one_byte_frame : (next? (step { State.reset with input := [.frame 0x5A []] })).map
    (fun t => (t.input, t.outputs)) = some ([], [[invalid .invalidShort]]) := by decide
theorem test_step_unknown_code_is_one_beat :
    (next? (step { here .aux0 0x0006 0 0 with input := [.frame 0x99 [0x00, 0xAA]] })).map
      (fun t => (t.input, t.phase, t.outputs)) = some ([.frame 0x00 [0xAA]], .aux1, [[]]) := by decide
theorem test_step_nothing_offered : (next? (step State.reset)).map (fun t => t.outputs) = some [[]] := by decide
theorem test_ports : (renderPorts 16 [.body 0x33, .smp 0x332211]).smpData = some 0x332211 := by decide

/-! ### Witnesses: concrete data that meet the hypotheses of the statements of Obligations.lean, each clause at a
boundary of its range. Statements without hypotheses need none. -/

theorem test_witness_DecodeOfEncodeIsTheInstruction :
    (Instr.width32 [0x00]).wellFormed = true ∧ (Instr.dataItem3 8191 []).wellFormed = true := by decide

theorem test_witness_EncodeOfDecodeIsTheBytes :
    (∀ p, Code.item [0x8A, 0x00, 0x03] ≠ .pins p) ∧ decode (.item [0x8A, 0x00, 0x03]) = .ok (.adModes [0x03]) :=
  ⟨fun _ h => Code.noConfusion h, rfl⟩

theorem test_witness_DecodedRowMatchesItsWord :
    (decode (.frame [0xFF, 0xFF]) = .ok (.dataItem3 8191 []) ∧ (Code.frame [0xFF, 0xFF]).tableWord = some 0xFFFF) ∧
    (decode (.item [0x00, 0x00]) = .ok (.noneItem []) ∧ (Code.item [0x00, 0x00]).tableWord = some 0) ∧
    (decode (.body 32 [0x00]) = .ok (.width32 [0x00]) ∧ (Code.body 32 [0x00]).tableWord = some 32) ∧
    (decode (.pins { ctl := 7, inData := 0, inLast := false, cfgWdata := 0 }) = .ok .reset ∧
      (Code.pins { ctl := 7, inData := 0, inLast := false, cfgWdata := 0 }).tableWord = some 7) :=
  ⟨⟨rfl, rfl⟩, ⟨rfl, rfl⟩, ⟨rfl, rfl⟩, ⟨rfl, rfl⟩⟩

/-- Both sides of the two equivalences, at codes and widths next to the boundaries. -/
theorem test_witness_WordsWithoutARowAreRejectedByName :
    ((le16 0x17 0x00).toNat ∉ [0x0000, 0x0018, 0x0020, 0x0044, 0x008A, 0x00B8]) ∧
    ((le16 0xB8 0x00).toNat ∈ [0x0000, 0x0018, 0x0020, 0x0044, 0x008A, 0x00B8]) ∧
    ((0 : Half).toNat ∉ [8, 16, 24, 32]) ∧ ((33 : Half).toNat ∉ [8, 16, 24, 32]) := by decide

/-- The pins used by the witnesses: `RESET` over a byte and a write of the same cycle. -/
def resetPins : Pins := { ctl := 0b111, inData := 0x0A, inLast := true, cfgWdata := 8 }

/-- A state that offers the given stimuli. -/
def offering (ss : List Stimulus) : State := { State.reset with input := ss }

theorem test_witness_StepRunsTheDecodedInstruction :
    ((offering [.cycle resetPins]).input = .cycle resetPins :: []) ∧
    (frameCode (offering [.frame 0x04 [0x60]]) [0x04, 0x60] = some (.frame [0x04, 0x60]) ∧
      decode (.frame [0x04, 0x60]) = .ok (.ack 4 [])) ∧
    (frameCode (offering [.frame 0x5A []]) [0x5A] = some (.frame [0x5A]) ∧
      decode (.frame [0x5A]) = .error .noHeader) ∧
    (frameCode (here .hdr1 0 0 0) [0x00] = none) ∧ State.reset.input = [] :=
  ⟨rfl, ⟨rfl, rfl⟩, ⟨rfl, rfl⟩, rfl, rfl⟩

theorem test_witness_PlacedInstructionIsTheNextStep :
    (Instr.width8 [0x00]).wellFormed = true ∧ (Instr.setControlItem 0 []).wellFormed = true := by decide

theorem test_witness_FrameLineIsItsBeats :
    (offering [.frame 0x02 [0x80]]).input = .frame 0x02 [0x80] :: [] ∧
      decodeFrame (offering [.frame 0x02 [0x80]]) [0x02, 0x80] = some (.dataItem0 2 []) ∧
      decodeFrame (here .aux0 0x0004 0 0) [0x18, 0x00] = some (.receiverState []) ∧
      decodeFrame (here .body 0x8000 0 8) [0x07] = some (.width8 [0x07]) := by decide

theorem test_witness_MessagesAndItemsAreTheirBeats :
    encode (.ack 0 []) = .frame [0x00, 0x60] ∧ encode (.adModes []) = .item [0x8A, 0x00] := by decide

theorem test_witness_DerivedPredicates : bwOk 8 = true ∧ bwOk 32 = true ∧ bwOk 0 = false ∧ bwOk 264 = false := by decide

theorem test_witness_ParseControlByLengthThenCode :
    ([] : List Byte).length < 4 ∧ ([0x04, 0x00, 0x18] : List Byte).length < 4 ∧
    ((0x18 : Byte).toNat + 256 * (0x00 : Byte).toNat) ∈ [0x0000, 0x0018, 0x0020, 0x0044, 0x008A, 0x00B8] ∧
    ((0x18 : Byte).toNat + 256 * (0x01 : Byte).toNat) ∉ [0x0000, 0x0018, 0x0020, 0x0044, 0x008A, 0x00B8] := by decide

theorem test_witness_BuildControlLayoutAndLimit :
    8187 < (List.replicate 8188 (0x00 : Byte)).length ∧ (List.replicate 8187 (0x00 : Byte)).length ≤ 8187 := by
  simp only [List.length_replicate]
  decide

/-- The longest and the shortest parameter list, a tag of each class on either side of the boundary. -/
theorem test_witness_ControlItemRoundTrip :
    knownCode 0x0000 = true ∧ knownCode 0x00B8 = true ∧ (List.replicate 8187 (0x00 : Byte)).length ≤ 8187 ∧
    ([] : List Byte).length ≤ 8187 ∧ State.reset.phase = .hdr0 ∧ (3 : Tag).toNat < 4 ∧ 4 ≤ (4 : Tag).toNat :=
  ⟨rfl, rfl, by simp only [List.length_replicate]; decide, by decide, rfl, by decide, by decide⟩

theorem test_witness_ParseDataByLength :
    ([0x02] : List Byte).length < 2 ∧ ([] : List Byte).length < 2 ∧ ([0x55] : List Byte).length < 2 := by decide

theorem test_witness_ExtractByWidth :
    (2 < [0xFF, 0x00, 0x80].length ∧ (extract 8 [0xFF, 0x00, 0x80]).toOption = some [255, 0, 128]) ∧
    (0 < [513].length ∧ (extract 16 [0x01, 0x02, 0x03]).toOption = some [513]) ∧
    (0 < [0x332211].length ∧ (extract 24 [0x11, 0x22, 0x33, 0x44]).toOption = some [0x332211]) ∧
    (0 < [0x04030201].length ∧ (extract 32 [1, 2, 3, 4, 5, 6, 7]).toOption = some [0x04030201]) := by decide

theorem test_witness_TrailingBytesChangeNoSample :
    (bwOk 24 = true ∧ [0x11, 0x22, 0x33].length % ((24 : Half).toNat / 8) = 0 ∧
      ([0x44, 0x55] : List Byte).length < (24 : Half).toNat / 8) ∧
    (bwOk 32 = true ∧ ([] : List Byte).length % ((32 : Half).toNat / 8) = 0 ∧
      ([1, 2, 3] : List Byte).length < (32 : Half).toNat / 8) := by decide

theorem test_witness_ControlInputsSelectTheEvent :
    (0b100 : BitVec 3).getLsbD 2 = true ∧ (0b111 : BitVec 3).getLsbD 2 = true := by decide

theorem test_witness_ResetZeroesEveryRegister :
    (offering [.cycle resetPins]).input = .cycle resetPins :: [] ∧ resetPins.ctl.getLsbD 2 = true := by decide

theorem test_witness_ConfigurationIsSeenFromTheNextFrame :
    State.reset.phase = .hdr0 ∧ (here .hdr1 0 0 0).phase ≠ .hdr0 ∧ (here .body 0 0 0).phase ≠ .hdr0 := by decide

theorem test_witness_BeatAtPhase0 : State.reset.phase = .hdr0 := by decide
theorem test_witness_BeatAtPhase1 : (here .hdr1 0x000A 0 16).phase = .hdr1 := by decide
theorem test_witness_BeatAtPhase2 : (here .aux0 0x6003 0 0).phase = .aux0 := by decide
theorem test_witness_BeatAtPhase3 : (here .aux1 0x0008 0x18 0).phase = .aux1 := by decide
theorem test_witness_BeatAtPhase4OfADataFrame :
    (here .body 0xC00B 2 24).phase = .body ∧ isData (here .body 0xC00B 2 24).hdr = true := by decide
theorem test_witness_BeatAtPhase4OfAControlFrame :
    (here .body 0x7FFF 0x20 0).phase = .body ∧ isData (here .body 0x7FFF 0x20 0).hdr = false := by decide

theorem test_witness_ControlMessagesComplete :
    State.reset.phase = .hdr0 ∧
    (Instr.ack 3 [0x00], (3 : Tag)) ∈ [(Instr.setControlItem 3 [0x00], (0 : Tag)), (.currentControlItem 3 [0x00], 1),
      (.controlItemRange 3 [0x00], 2), (.ack 3 [0x00], 3)] := by decide

theorem test_witness_DataMessagesComplete :
    State.reset.phase = .hdr0 ∧
    (Instr.dataItem3 3 [0x55], (7 : Tag)) ∈ [(Instr.dataItem0 3 [0x55], (4 : Tag)), (.dataItem1 3 [0x55], 5),
      (.dataItem2 3 [0x55], 6), (.dataItem3 3 [0x55], 7)] := by decide

theorem test_witness_ItemCodesComplete :
    (here .aux0 0x6004 0 0).phase = .aux0 ∧ isData (here .aux0 0x6004 0 0).hdr = false ∧
    (Instr.noneItem [], (0x0000 : Half)) ∈ [(Instr.noneItem [], (0x0000 : Half)), (.receiverState [], 0x0018),
      (.receiverFrequency [], 0x0020), (.rfFilter [], 0x0044), (.adModes [], 0x008A),
      (.iqOutputDataSampleRate [], 0x00B8)] := by decide

/-- A group of three bytes already begun, under the width 32, and no byte yet, under the width 8. -/
theorem test_witness_WidthsComplete :
    let s : State := { here .body 0xE00B 3 32 with acc := 0x00030201, gidx := 3 }
    let u : State := here .body 0xA005 1 8
    (s.phase = .body ∧ isData s.hdr = true ∧ s.sse = false ∧ ([0x04] : List Byte) ≠ [] ∧
      ([1, 2, 3] : List Byte).length < 4 ∧ s.gidx = BitVec.ofNat 2 ([1, 2, 3] : List Byte).length ∧
      s.acc = BitVec.ofNat 32 (le [1, 2, 3])) ∧
    (u.phase = .body ∧ isData u.hdr = true ∧ u.sse = false ∧ ([] : List Byte).length < 1 ∧
      u.gidx = BitVec.ofNat 2 ([] : List Byte).length ∧ u.acc = BitVec.ofNat 32 (le [])) := by decide

/-- A two-byte frame with a write in each beat's cycle, an idle cycle and a write between them and after them. -/
theorem test_witness_EngineRefinesTheFunctions :
    let row : List Instr := [.beatCfg 0x02 false 8, .idle, .cfgWrite 16, .beatCfg 0x80 true 24, .cfgWrite 32]
    State.reset.phase = .hdr0 ∧ ([0x02, 0x80] : List Byte) ≠ [] ∧
    (∀ i ∈ row, isPortEvent i = true ∧ i ≠ .reset) ∧
    beatsOf [.beatCfg 0x02 false 8] ≠ [] ∧ beatsOf row = framed [0x02, 0x80] := by decide

theorem test_witness_FramesAreIndependentOfHistory :
    let s₁ : State := State.reset
    let s₂ : State := { here .hdr0 0xC00B 0x0002 24 with acc := 0x77, gidx := 1, seqp := true, sse := true }
    s₁ ≠ s₂ ∧ s₁.phase = .hdr0 ∧ s₂.phase = .hdr0 ∧ s₁.cfgBitwidth = s₂.cfgBitwidth := by decide

theorem test_witness_MissingLastJoinsTwoMessages :
    let s : State := { here .body 0x0008 0x0018 0 with codeOk := true }
    s.phase = .body ∧ isData s.hdr = false ∧ s.codeOk = true ∧
    (Instr.dataItem3 2 [], (7 : Tag)) ∈ [(Instr.setControlItem 2 [], (0 : Tag)), (.dataItem3 2 [], 7)] := by decide

/-- The middle of a group of three in the body of a data frame. -/
def inAGroup : State := { here .body 0xC00B 2 24 with acc := 0x2211, gidx := 2, seqp := true }

theorem test_witness_inAGroup_Inv : inAGroup.Inv := by
  refine ⟨by decide, by decide, by decide, fun _ _ => ⟨by decide, by decide⟩⟩

theorem test_witness_EveryStepKeepsTheInvariant :
    (inAGroup.withInput [.frame 0x33 []]).Inv ∧
    (next? (step (inAGroup.withInput [.frame 0x33 []]))).isSome = true :=
  ⟨test_witness_inAGroup_Inv, by decide⟩

theorem test_witness_InvariantGivesR25 : inAGroup.Inv := test_witness_inAGroup_Inv

/-- Two steps from reset: a write of the width and a whole frame. -/
theorem test_witness_ReachableStatesMeetR25 :
    (next? (Host.Core.run Sys2Proof.core 2 (State.reset.withInput
      [.cycle { ctl := 0b010, inData := 0, inLast := false, cfgWdata := 8 }, .frame 0x02 [0x80]]))).isSome = true := by
  decide

theorem test_witness_VerdictsAreExclusive :
    (emitted (.beat 0x80 true) (here .hdr1 0x0002 0 40) = some [.hdr 4 2 true, .sse, okData 4 2 0 false true]) ∧
    (emitted (.beat 0xBB true) (here .body 0x0006 0x0099 0) = some [invalid .invalidCode]) := by decide

theorem test_witness_SamplesNeedALegalWidth :
    inAGroup.Inv ∧ emitted (.beat 0x33 false) inAGroup = some [.body 0x33, .smp 0x332211] :=
  ⟨test_witness_inAGroup_Inv, by decide⟩

theorem test_witness_IdleMachineWaitsForEver : (here .aux1 0x0006 0x99 0).input = [] := by decide

theorem test_witness_RegistersAreWrittenOnlyAsListed :
    isPortEvent (.beatCfg 0x0A true 8) = true ∧ Instr.beatCfg 0x0A true 8 ≠ .reset ∧
    isPortEvent .idle = true ∧ beatsOf [.idle] = [] := by decide

theorem test_witness_EveryInstructionKeepsOutputsAndInput :
    (next? (exec (.cfgWrite 8) State.reset)).map (fun t => t.cfgBitwidth) = some 8 ∧ State.reset.cfgBitwidth ≠ 8 := by
  decide

end Sys2Proof.Tests
end

section
/-! What a step executes: a port event, or a row of bytes presented as plain beats. The decoder's rows are tied to
the bytes they were read from (30_encoding.md R59), and `step_cases` says once what one step can do. -/

namespace Sys2Proof

open Sys2Proof.Machine

/-! ### The tables, back and forth (30_encoding.md R46, R49) -/

@[simp] theorem MessageType.tag_ofTag (t : Tag) : (MessageType.ofTag t).tag = t := by
  revert t; decide

theorem ItemCode.value_of_ofValue {c : Half} {k : ItemCode} (h : ItemCode.ofValue c = some k) : k.value = c := by
  unfold ItemCode.ofValue at h
  split_ifs at h with h0 h1 h2 h3 h4 h5 <;> cases h <;> simp only [ItemCode.value, *]

theorem Width.value_of_ofValue {w : Half} {k : Width} (h : Width.ofValue w = some k) : k.value = w := by
  unfold Width.ofValue at h
  split_ifs at h with h0 h1 h2 h3 <;> cases h <;> simp only [Width.value, *]

end Sys2Proof

namespace Sys2Proof.Machine

@[simp] theorem le16Bytes_le16 (a b : Byte) : le16Bytes (le16 a b) = [a, b] := by simp [le16Bytes]

/-- A header is its own two fields, packed again (40_header_codec.md R67). -/
@[simp] theorem pack_typeOf_lengthOf (h : Half) : pack (typeOf h) (lengthOf h) = h := by
  apply BitVec.eq_of_getLsbD_eq
  intro i hi
  rw [getLsbD_pack]
  simp only [typeOf, lengthOf, BitVec.getLsbD_extractLsb']
  by_cases hl : i < 13
  · simp [hl]
  · simp [hl, show 13 + (i - 13) = i by omega, show i - 13 < 3 by omega]

theorem messageBytes_ofTag (h : Half) (payload : List Byte) :
    messageBytes (.ofTag (typeOf h)) (lengthOf h) payload = le16Bytes h ++ payload := by
  simp [messageBytes]

/-! ### The meanings of the rows of bytes -/

theorem exec_decodeHeader (h : Half) (payload : List Byte) (s : State) :
    exec (decodeHeader h payload) s = .next (present (le16Bytes h ++ payload) s) := by
  rw [← messageBytes_ofTag, decodeHeader]
  cases MessageType.ofTag (typeOf h) <;> rfl

theorem exec_of_decodeItem {c : Half} {parameters : List Byte} {i : Instr} (h : decodeItem c parameters = .ok i)
    (s : State) : exec i s = .next (present (le16Bytes c ++ parameters) s) := by
  unfold decodeItem at h
  cases hc : ItemCode.ofValue c with
  | none => simp [hc] at h
  | some k =>
    rw [← ItemCode.value_of_ofValue hc]
    cases k <;> simp only [hc, Except.ok.injEq] at h <;> subst h <;> rfl

/-- A width's row cuts the body into groups of `gbytes` of that width (R51, R92 to R95). -/
theorem exec_of_decodeWidth {w : Half} {body : List Byte} {i : Instr} (h : decodeWidth w body = .ok i) (s : State) :
    exec i s = .next (presentWith (gbytes w) body s) := by
  unfold decodeWidth at h
  cases hw : Width.ofValue w with
  | none => simp [hw] at h
  | some k =>
    rw [← Width.value_of_ofValue hw]
    cases k <;> simp only [hw, Except.ok.injEq] at h <;> subst h <;> rfl

theorem exec_of_decode_frame {bytes : List Byte} {i : Instr} (h : decode (.frame bytes) = .ok i) (s : State) :
    exec i s = .next (present bytes s) := by
  match bytes, h with
  | b0 :: b1 :: payload, h =>
    obtain rfl : decodeHeader (le16 b0 b1) payload = i := by simpa [decode] using h
    simp [exec_decodeHeader]

theorem exec_of_decode_item {bytes : List Byte} {i : Instr} (h : decode (.item bytes) = .ok i) (s : State) :
    exec i s = .next (present bytes s) := by
  match bytes, h with
  | b2 :: b3 :: parameters, h => simpa using exec_of_decodeItem h s

theorem exec_of_decode_body {w : Half} {bytes : List Byte} {i : Instr} (h : decode (.body w bytes) = .ok i)
    (s : State) : exec i s = .next (presentWith (gbytes w) bytes s) := by
  match bytes, h with
  | _ :: _, h => exact exec_of_decodeWidth h s

/-! ### What is fetched -/

theorem eq_ok_of_toOption {ε α : Type} {x : Except ε α} {a : α} (h : x.toOption = some a) : x = .ok a := by
  cases x with
  | error e => cases h
  | ok b => cases h; rfl

/-- The three places at which the rest of a frame is a row of the table (R59). -/
theorem decodeFrame_cases {s : State} {bytes : List Byte} {i : Instr} (h : decodeFrame s bytes = some i) :
    decode (.frame bytes) = .ok i ∨ decode (.item bytes) = .ok i ∨
    (s.phase = .body ∧ decode (.body s.bw bytes) = .ok i) := by
  unfold decodeFrame frameCode at h
  cases hp : s.phase with
  | hdr0 => exact .inl (eq_ok_of_toOption (by simpa [hp] using h))
  | hdr1 => simp [hp] at h
  | aux0 =>
    cases hd : isData s.hdr with
    | true => simp [hp, hd] at h
    | false => exact .inr (.inl (eq_ok_of_toOption (by simpa [hp, hd] using h)))
  | aux1 => simp [hp] at h
  | body =>
    cases hd : isData s.hdr && !s.sse with
    | false => simp [hp, hd] at h
    | true => exact .inr (.inr ⟨rfl, eq_ok_of_toOption (by simpa [hp, hd] using h)⟩)

/-- Whatever row the rest of a frame is, executing it where it is fetched presents its bytes as plain beats. -/
theorem exec_of_decodeFrame {s : State} {bytes : List Byte} {i : Instr} (h : decodeFrame s bytes = some i)
    (more : List Stimulus) : exec i (s.withInput more) = .next (present bytes (s.withInput more)) := by
  obtain hframe | hitem | ⟨hp, hbody⟩ := decodeFrame_cases h
  · exact exec_of_decode_frame hframe _
  · exact exec_of_decode_item hitem _
  · rw [exec_of_decode_body hbody]
    exact congrArg _ (presentWith_gbytes (s := s.withInput more) hp bytes)

theorem isPortEvent_decodePins (p : Pins) : isPortEvent (decodePins p) = true := by
  unfold decodePins
  split_ifs <;> rfl

/-- One step: a port event, or a row of bytes presented as plain beats, after the stimuli it consumed are gone. -/
theorem step_cases {s t : State} (h : step s = .next t) : ∃ more : List Stimulus,
    (∃ i, isPortEvent i = true ∧ exec i (s.withInput more) = .next t) ∨
    (∃ bytes, t = present bytes (s.withInput more)) := by
  unfold step at h
  refine ⟨(fetch s).2, ?_⟩
  cases hi : s.input with
  | nil => exact .inl ⟨.idle, rfl, by simpa [fetch_empty hi] using h⟩
  | cons st more =>
    cases st with
    | cycle p => exact .inl ⟨_, isPortEvent_decodePins p, by simpa [fetch_cycle hi] using h⟩
    | frame b bs =>
      cases hf : decodeFrame s (b :: bs) with
      | none => exact .inl ⟨.beat b bs.isEmpty, rfl, by simpa [fetch_beat hi hf] using h⟩
      | some i =>
        rw [fetch_row hi hf, exec_of_decodeFrame hf, Host.Outcome.next.injEq] at h
        exact .inr ⟨b :: bs, by rw [fetch_row hi hf, h]⟩

/-! ### The port events (30_encoding.md R56) -/

theorem isPortEvent_cases {i : Instr} (h : isPortEvent i = true) :
    i = .reset ∨ (∃ v, i = .cfgWrite v) ∨ (∃ d last, i = .beat d last) ∨ (∃ d last v, i = .beatCfg d last v) ∨
    i = .idle := by
  cases i with
  | reset => exact .inl rfl
  | cfgWrite v => exact .inr (.inl ⟨v, rfl⟩)
  | beat d last => exact .inr (.inr (.inl ⟨d, last, rfl⟩))
  | beatCfg d last v => exact .inr (.inr (.inr (.inl ⟨d, last, v, rfl⟩)))
  | idle => exact .inr (.inr (.inr (.inr rfl)))
  | _ => exact Bool.noConfusion h

@[simp] theorem exec_reset (s : State) : exec .reset s = .next (s.clearRegisters.emit []) := rfl
@[simp] theorem exec_cfgWrite (v : Half) (s : State) : exec (.cfgWrite v) s = .next ((s.writeCfg v).emit []) := rfl
@[simp] theorem exec_beat (d : Byte) (last : Bool) (s : State) : exec (.beat d last) s = .next (beat d last s) := rfl
@[simp] theorem exec_beatCfg (d : Byte) (last : Bool) (v : Half) (s : State) :
    exec (.beatCfg d last v) s = .next ((beat d last s).writeCfg v) := rfl
@[simp] theorem exec_idle (s : State) : exec .idle s = .next (s.emit []) := rfl

end Sys2Proof.Machine
end

section
/-! The invariant of 10_state.md R25 in its inductive form: what it says at each position, that each beat rule keeps
it, and so every step and every run. -/

namespace Sys2Proof.Machine

/-! ### What the invariant says at each value of `PHASE` -/

theorem State.inv_of_hdr0 {s : State} (h : s.phase = .hdr0) : s.Inv := by simp [State.Inv, h]

theorem State.inv_hdr1 {s : State} (h : s.phase = .hdr1) : s.Inv ↔ s.GroupClear ∧ s.sse = false := by
  simp [State.Inv, h]

theorem State.inv_aux0 {s : State} (h : s.phase = .aux0) :
    s.Inv ↔ s.GroupClear ∧ s.sse = sampleSizeError s.hdr s.bw := by simp [State.Inv, h]

theorem State.inv_aux1 {s : State} (h : s.phase = .aux1) :
    s.Inv ↔ s.GroupClear ∧ s.sse = sampleSizeError s.hdr s.bw := by simp [State.Inv, h]

/-- A group of size `g` in progress: it is not complete, and only its bytes so far are in the accumulator (R25 (b)). -/
def GroupFits (g : BitVec 3) (acc : BitVec 32) (gidx : BitVec 2) : Prop :=
  gidx.toNat < g.toNat ∧ acc.toNat < 2 ^ (8 * gidx.toNat)

theorem State.inv_body {s : State} (h : s.phase = .body) :
    s.Inv ↔ s.sse = sampleSizeError s.hdr s.bw ∧ s.seqp = isData s.hdr ∧
      s.codeOk = (!isData s.hdr && knownCode s.aux) ∧
      (isData s.hdr = true → s.sse = false → GroupFits (gbytes s.bw) s.acc s.gidx) := by
  simp [State.Inv, h, GroupFits]

/-- `CFG_BITWIDTH` and the environment's lists are not in the invariant. -/
theorem State.inv_writeCfg {v : Half} {s : State} : (s.writeCfg v).Inv ↔ s.Inv := Iff.rfl
theorem State.inv_emit {rs : List Record} {s : State} : (s.emit rs).Inv ↔ s.Inv := Iff.rfl
theorem State.inv_withInput {more : List Stimulus} {s : State} : (s.withInput more).Inv ↔ s.Inv := Iff.rfl

/-- A data frame without `SampleSizeOutOfRange` has a legal width. -/
theorem bwOk_of_sampleSizeError {h w : Half} (hd : isData h = true) (he : sampleSizeError h w = false) :
    bwOk w = true := by
  simpa [sampleSizeError, hd] using he

/-! ### The deserializer keeps the group in its bounds (44_frame_engine.md R109) -/

theorem groupFits_clear {g : BitVec 3} (hg : 1 ≤ g.toNat) : GroupFits g 0 0 := ⟨hg, by simp⟩

/-- OR-ing in a byte above `n` bits gives at most `n + 8` bits. -/
theorem or_shifted_byte_lt {acc : BitVec 32} {n : Nat} (h : acc.toNat < 2 ^ n) (d : Byte) :
    (acc ||| (d.setWidth 32 <<< n)).toNat < 2 ^ (n + 8) := by
  have hacc : acc.toNat < 2 ^ (n + 8) := h.trans (Nat.pow_lt_pow_right (by omega) (by omega))
  have hbyte : d.toNat * 2 ^ n < 2 ^ (n + 8) := by
    rw [Nat.pow_add, Nat.mul_comm]
    exact Nat.mul_lt_mul_of_pos_left d.isLt (by positivity)
  rw [BitVec.toNat_or]
  refine Nat.or_lt_two_pow hacc (lt_of_le_of_lt ?_ hbyte)
  rw [BitVec.toNat_shiftLeft, Nat.shiftLeft_eq, BitVec.toNat_setWidth]
  exact (Nat.mod_le _ _).trans (Nat.mul_le_mul_right _ (Nat.mod_le _ _))

theorem deser_groupFits {g : BitVec 3} (hg : g.toNat ≤ 4) {acc : BitVec 32} {gidx : BitVec 2}
    (h : GroupFits g acc gidx) (d : Byte) :
    GroupFits g (deser g d acc gidx).2.1 (deser g d acc gidx).2.2 := by
  obtain ⟨hidx, hacc⟩ := h
  obtain ⟨_, e⟩ | ⟨hne, e⟩ := deser_cases g d acc gidx
  · rw [e]
    exact groupFits_clear (by omega)
  · rw [e]
    rw [Ne, gidx_succ_eq_iff] at hne
    have hsucc : (gidx + 1).toNat = gidx.toNat + 1 := by
      rw [BitVec.toNat_add]
      exact Nat.mod_eq_of_lt (by have : (1 : BitVec 2).toNat = 1 := rfl; omega)
    refine ⟨by rw [hsucc]; omega, ?_⟩
    rw [hsucc, Nat.mul_add]
    exact or_shifted_byte_lt hacc d

/-! ### Each beat rule keeps the invariant, on a beat that is not the frame's last -/

theorem inv_beatHdr0 (d : Byte) (s : State) : (beatHdr0 d false s).Inv := by
  rw [State.inv_hdr1 (by simp [beatHdr0])]
  simp [beatHdr0, State.GroupClear]

theorem inv_beatHdr1 (d : Byte) {s : State} (hp : s.phase = .hdr1) (hs : s.Inv) : (beatHdr1 d false s).Inv := by
  obtain ⟨hclear, hsse⟩ := (State.inv_hdr1 hp).1 hs
  rw [State.inv_aux0 (by simp [beatHdr1])]
  exact ⟨hclear, by simp [beatHdr1, hsse]⟩

theorem inv_beatAux0 (d : Byte) {s : State} (hp : s.phase = .aux0) (hs : s.Inv) : (beatAux0 d false s).Inv := by
  rw [State.inv_aux1 (by simp [beatAux0])]
  exact (State.inv_aux0 hp).1 hs

/-- The class decides which flag the fourth byte writes; the group is still clear, and fits when the width is legal. -/
theorem inv_beatAux1 (d : Byte) {s : State} (hp : s.phase = .aux1) (hs : s.Inv) : (beatAux1 d false s).Inv := by
  obtain ⟨⟨hacc, hgidx, hcode, hseqp⟩, hsse⟩ := (State.inv_aux1 hp).1 hs
  rw [State.inv_body (by simp [beatAux1])]
  cases hd : isData s.hdr with
  | false => simp [beatAux1, hd, hsse, hseqp]
  | true =>
    have hfits : sampleSizeError s.hdr s.bw = false → GroupFits (gbytes s.bw) 0 0 := fun he =>
      groupFits_clear (gbytes_of_bwOk (bwOk_of_sampleSizeError hd he)).1
    simpa [beatAux1, hd, hsse, hcode, hacc, hgidx] using hfits

/-- Only the deserializer writes a register in the body, and it keeps the group in its bounds. -/
theorem inv_beatBody (d : Byte) {s : State} (hp : s.phase = .body) (hs : s.Inv) :
    (beatBody (gbytes s.bw) d false s).Inv := by
  obtain ⟨hsse, hseqp, hcode, hfits⟩ := (State.inv_body hp).1 hs
  rw [State.inv_body (by simp [beatBody])]
  obtain ⟨hd, hs0, e⟩ | ⟨_, _, e⟩ | ⟨_, _, e⟩ | ⟨_, _, e⟩ := bodyByte_cases (gbytes s.bw) d s
  · have hw := gbytes_of_bwOk (bwOk_of_sampleSizeError hd (hsse ▸ hs0))
    have hgroup := deser_groupFits hw.2.1 (hfits hd hs0) d
    simpa [beatBody, e] using ⟨hsse, hseqp, hcode, fun _ _ => hgroup⟩
  all_goals simpa [beatBody, e] using ⟨hsse, hseqp, hcode, hfits⟩

theorem inv_beat (d : Byte) (last : Bool) {s : State} (hs : s.Inv) : (beat d last s).Inv := by
  cases last with
  | true => exact State.inv_of_hdr0 (by simp [beat_phase])
  | false =>
    rw [beat]
    cases hp : s.phase with
    | hdr0 => rw [beatWith_hdr0 hp]; exact inv_beatHdr0 d s
    | hdr1 => rw [beatWith_hdr1 hp]; exact inv_beatHdr1 d hp hs
    | aux0 => rw [beatWith_aux0 hp]; exact inv_beatAux0 d hp hs
    | aux1 => rw [beatWith_aux1 hp]; exact inv_beatAux1 d hp hs
    | body => rw [beatWith_body hp]; exact inv_beatBody d hp hs

theorem inv_present (bytes : List Byte) {s : State} (hs : s.Inv) : (present bytes s).Inv := by
  induction bytes generalizing s with
  | nil => exact hs
  | cons b bs ih =>
    rw [present_cons]
    exact ih (inv_beat b bs.isEmpty hs)

/-! ### Every step and every run -/

theorem inv_portEvent {i : Instr} {s t : State} (hi : isPortEvent i = true) (hs : s.Inv) (h : exec i s = .next t) :
    t.Inv := by
  obtain rfl | ⟨v, rfl⟩ | ⟨d, last, rfl⟩ | ⟨d, last, v, rfl⟩ | rfl := isPortEvent_cases hi <;>
    obtain rfl := Host.Outcome.next.inj h
  · exact State.inv_of_hdr0 rfl
  · exact State.inv_emit.2 (State.inv_writeCfg.2 hs)
  · exact inv_beat d last hs
  · exact State.inv_writeCfg.2 (inv_beat d last hs)
  · exact State.inv_emit.2 hs

theorem inv_step {s t : State} (hs : s.Inv) (h : step s = .next t) : t.Inv := by
  obtain ⟨more, ⟨i, hi, he⟩ | ⟨bytes, rfl⟩⟩ := step_cases h
  · exact inv_portEvent hi (State.inv_withInput.2 hs) he
  · exact inv_present bytes (State.inv_withInput.2 hs)

/-- A run of one more step that ends in a state makes its first step, and goes on from there. -/
theorem run_succ_eq_next {M : Host.Core} {n : Nat} {s t : M.State} (h : M.run (n + 1) s = .next t) :
    ∃ s', M.step s = .next s' ∧ M.run n s' = .next t := by
  rw [Host.Core.run] at h
  split at h
  next s' hstep => exact ⟨s', hstep, h⟩
  next => cases h
  next => cases h

/-- A property that every step keeps holds at the end of every run from a state that has it. -/
theorem run_keeps {M : Host.Core} {P : M.State → Prop} (hstep : ∀ s t, P s → M.step s = .next t → P t) {n : Nat}
    {s t : M.State} (hs : P s) (h : M.run n s = .next t) : P t := by
  induction n generalizing s with
  | zero => cases h; exact hs
  | succ n ih =>
    obtain ⟨s', hfirst, hrest⟩ := run_succ_eq_next h
    exact ih (hstep s s' hs hfirst) hrest

theorem inv_reset : State.reset.Inv := State.inv_of_hdr0 rfl

/-! ### The clauses of R25 -/

/-- `MeetsR25` speaks of `SSE`, `CODE_OK` and `SEQP` only inside a frame. -/
theorem State.meetsR25_of_hdr0 {s : State} (h : s.phase = .hdr0) : s.MeetsR25 := by simp [State.MeetsR25, h]

theorem State.meetsR25_of_groupClear {s : State} (hbody : s.phase ≠ .body) (hclear : s.GroupClear)
    (hsse : s.sse = true → s.phase ≠ .hdr1 ∧ isData s.hdr = true) : s.MeetsR25 := by
  obtain ⟨_, _, hcode, hseqp⟩ := hclear
  exact ⟨fun h => absurd h hbody, fun _ => hsse, by simp [hcode], by simp [hseqp]⟩

theorem isData_of_sampleSizeError {h w : Half} (he : sampleSizeError h w = true) : isData h = true := by
  simp only [sampleSizeError, Bool.and_eq_true] at he
  exact he.1

theorem State.meetsR25_of_inv {s : State} (hs : s.Inv) : s.MeetsR25 := by
  cases hp : s.phase with
  | hdr0 => exact State.meetsR25_of_hdr0 hp
  | hdr1 =>
    obtain ⟨hclear, hsse⟩ := (State.inv_hdr1 hp).1 hs
    exact State.meetsR25_of_groupClear (by simp [hp]) hclear (by simp [hsse])
  | aux0 =>
    obtain ⟨hclear, hsse⟩ := (State.inv_aux0 hp).1 hs
    exact State.meetsR25_of_groupClear (by simp [hp]) hclear
      fun h => ⟨by simp [hp], isData_of_sampleSizeError (hsse ▸ h)⟩
  | aux1 =>
    obtain ⟨hclear, hsse⟩ := (State.inv_aux1 hp).1 hs
    exact State.meetsR25_of_groupClear (by simp [hp]) hclear
      fun h => ⟨by simp [hp], isData_of_sampleSizeError (hsse ▸ h)⟩
  | body =>
    obtain ⟨hsse, hseqp, hcode, hfits⟩ := (State.inv_body hp).1 hs
    refine ⟨fun _ hd h0 => ⟨bwOk_of_sampleSizeError hd (hsse ▸ h0), hfits hd h0⟩, fun _ h1 => ?_, fun _ h1 => ?_,
      fun _ h1 => ⟨hp, hseqp ▸ h1⟩⟩
    · exact ⟨by simp [hp], isData_of_sampleSizeError (hsse ▸ h1)⟩
    · exact ⟨hp, by simpa [hcode] using h1⟩

/-! ### The obligations -/

/-- Settles O47: every step is a port event or a row of beats, and each of them keeps the invariant. -/
theorem everyStepKeepsTheInvariant : Obligations.EveryStepKeepsTheInvariant :=
  fun _ _ hs h => inv_step hs h

/-- Settles O48: after reset `PHASE` is 0, where the invariant asks nothing. -/
theorem resetMeetsTheInvariant : Obligations.ResetMeetsTheInvariant := inv_reset

/-- Settles O49, position by position. -/
theorem invariantGivesR25 : Obligations.InvariantGivesR25 := fun _ hs => State.meetsR25_of_inv hs

/-- Settles O50: the invariant holds at reset and every step keeps it, and it gives R25. -/
theorem reachableStatesMeetR25 : Obligations.ReachableStatesMeetR25 := fun _ _ _ h =>
  State.meetsR25_of_inv (run_keeps (M := core) (P := State.Inv) (fun _ _ => inv_step) (State.inv_withInput.2 inv_reset) h)

end Sys2Proof.Machine
end

section
/-! Which registers each beat rule leaves alone (the column 'written by' of 10_state.md R10), and how `PHASE` moves
(R17). -/

namespace Sys2Proof.Machine

/-! ### What each beat rule leaves alone -/

theorem beatHdr0_keeps (d : Byte) (last : Bool) (s : State) : (beatHdr0 d last s).aux = s.aux := by
  cases last <;> simp [beatHdr0]

theorem beatHdr1_keeps (d : Byte) (last : Bool) (s : State) :
    (beatHdr1 d last s).aux = s.aux ∧ (beatHdr1 d last s).bw = s.bw ∧ (beatHdr1 d last s).acc = s.acc ∧
    (beatHdr1 d last s).gidx = s.gidx ∧ (beatHdr1 d last s).codeOk = s.codeOk ∧
    (beatHdr1 d last s).seqp = s.seqp := by
  cases last <;> simp [beatHdr1]

theorem beatAux0_keeps (d : Byte) (last : Bool) (s : State) :
    (beatAux0 d last s).hdr = s.hdr ∧ (beatAux0 d last s).bw = s.bw ∧ (beatAux0 d last s).acc = s.acc ∧
    (beatAux0 d last s).gidx = s.gidx ∧ (beatAux0 d last s).sse = s.sse ∧ (beatAux0 d last s).codeOk = s.codeOk ∧
    (beatAux0 d last s).seqp = s.seqp := by
  cases last <;> simp [beatAux0]

theorem beatAux1_keeps (d : Byte) (last : Bool) (s : State) :
    (beatAux1 d last s).hdr = s.hdr ∧ (beatAux1 d last s).bw = s.bw ∧ (beatAux1 d last s).acc = s.acc ∧
    (beatAux1 d last s).gidx = s.gidx ∧ (beatAux1 d last s).sse = s.sse := by
  cases last <;> cases hd : isData s.hdr <;> simp [beatAux1, hd]

theorem beatBody_keeps (g : BitVec 3) (d : Byte) (last : Bool) (s : State) :
    (beatBody g d last s).hdr = s.hdr ∧ (beatBody g d last s).aux = s.aux ∧ (beatBody g d last s).bw = s.bw ∧
    (beatBody g d last s).sse = s.sse ∧ (beatBody g d last s).codeOk = s.codeOk ∧
    (beatBody g d last s).seqp = s.seqp := by
  obtain ⟨a, i, e⟩ := bodyByte_state g d s
  cases last <;> simp [beatBody, e]

/-- From `s` to `t` no register of a frame was written at a value of `PHASE` that R10 does not list for it. -/
def State.WrittenAsListed (s t : State) : Prop :=
  (t.hdr ≠ s.hdr → s.phase = .hdr0 ∨ s.phase = .hdr1) ∧
  (t.aux ≠ s.aux → s.phase = .aux0 ∨ s.phase = .aux1) ∧
  (t.bw ≠ s.bw → s.phase = .hdr0) ∧
  (t.acc ≠ s.acc ∨ t.gidx ≠ s.gidx → s.phase = .hdr0 ∨ s.phase = .body) ∧
  (t.sse ≠ s.sse → s.phase = .hdr0 ∨ s.phase = .hdr1) ∧
  (t.codeOk ≠ s.codeOk ∨ t.seqp ≠ s.seqp → s.phase = .hdr0 ∨ s.phase = .aux1)

theorem beat_writtenAsListed (d : Byte) (last : Bool) (s : State) : s.WrittenAsListed (beat d last s) := by
  rw [beat]
  cases hp : s.phase with
  | hdr0 => simp [State.WrittenAsListed, hp, beatWith_hdr0, beatHdr0_keeps]
  | hdr1 => simp [State.WrittenAsListed, hp, beatWith_hdr1, beatHdr1_keeps]
  | aux0 => simp [State.WrittenAsListed, hp, beatWith_aux0, beatAux0_keeps]
  | aux1 => simp [State.WrittenAsListed, hp, beatWith_aux1, beatAux1_keeps]
  | body => simp [State.WrittenAsListed, hp, beatWith_body, beatBody_keeps]

/-! ### How `PHASE` moves -/

theorem Phase.number_next (p : Phase) : p.next.number.toNat = min (p.number.toNat + 1) 4 := by
  cases p <;> rfl

/-! ### The obligations -/

/-- Settles O57: the beat rules write as listed; a configuration write and an idle cycle write no other register. -/
theorem registersAreWrittenOnlyAsListed : Obligations.RegistersAreWrittenOnlyAsListed := by
  intro i s hi hreset
  obtain rfl | ⟨v, rfl⟩ | ⟨d, last, rfl⟩ | ⟨d, last, v, rfl⟩ | rfl := isPortEvent_cases hi
  · exact absurd rfl hreset
  · exact ⟨_, rfl, fun _ => ⟨v, .inl rfl⟩, fun _ => rfl, by simp⟩
  · obtain ⟨hhdr, haux, hbw, hgroup, hsse, hflags⟩ := beat_writtenAsListed d last s
    exact ⟨_, rfl, by simp, by simp [beatsOf], hhdr, haux, hbw, hgroup, hsse, hflags, beat_input d last s⟩
  · obtain ⟨hhdr, haux, hbw, hgroup, hsse, hflags⟩ := beat_writtenAsListed d last s
    exact ⟨_, rfl, fun _ => ⟨v, .inr ⟨d, last, rfl⟩⟩, by simp [beatsOf], hhdr, haux, hbw, hgroup, hsse, hflags,
      beat_input d last s⟩
  · exact ⟨_, rfl, by simp, fun _ => rfl, by simp⟩

/-- Settles O39: a beat's next position has the next number, up to 4. -/
theorem phaseAdvancesAndSaturates : Obligations.PhaseAdvancesAndSaturates := by
  intro d last v s
  refine ⟨⟨_, exec_beat d last s, ?_⟩, ⟨_, exec_cfgWrite v s, rfl⟩, ⟨_, exec_idle s, rfl⟩, ⟨_, exec_reset s, rfl⟩⟩
  rw [beat_phase]
  cases last with
  | true => rfl
  | false => exact Phase.number_next s.phase

end Sys2Proof.Machine
end

section
/-! The derived predicates of 10_state.md R19 as statements on numbers. -/

namespace Sys2Proof.Machine

theorem bwOk_iff_toNat (w : Half) :
    bwOk w = true ↔ (w.toNat = 8 ∨ w.toNat = 16 ∨ w.toNat = 24 ∨ w.toNat = 32) := by
  simp [bwOk, BitVec.toNat_eq, or_assoc]

theorem toNat_gbytes (w : Half) : (gbytes w).toNat = (w.toNat / 8) % 8 := by
  rw [gbytes, BitVec.extractLsb'_toNat, Nat.shiftRight_eq_div_pow]

theorem knownCode_iff_toNat (c : Half) :
    knownCode c = true ↔ c.toNat ∈ [0x0000, 0x0018, 0x0020, 0x0044, 0x008A, 0x00B8] := by
  simp [knownCode, BitVec.toNat_eq, or_assoc]

theorem knownCode_value (k : ItemCode) : knownCode k.value = true := by cases k <;> rfl

/-- The comparison of 16 bits agrees with the table of the item codes (30_encoding.md R49). -/
theorem knownCode_iff_value (c : Half) : knownCode c = true ↔ ∃ k : ItemCode, k.value = c := by
  constructor
  · intro h
    have hc : c = 0x0000 ∨ c = 0x0018 ∨ c = 0x0020 ∨ c = 0x0044 ∨ c = 0x008A ∨ c = 0x00B8 := by
      simpa [knownCode, or_assoc] using h
    obtain rfl | rfl | rfl | rfl | rfl | rfl := hc
    exacts [⟨.noneItem, rfl⟩, ⟨.receiverState, rfl⟩, ⟨.receiverFrequency, rfl⟩, ⟨.rfFilter, rfl⟩, ⟨.adModes, rfl⟩,
      ⟨.iqOutputDataSampleRate, rfl⟩]
  · rintro ⟨k, rfl⟩
    exact knownCode_value k

/-- Settles O15. -/
theorem derivedPredicates : Obligations.DerivedPredicates := by
  refine ⟨fun _ => rfl, bwOk_iff_toNat, toNat_gbytes, fun w hw => ?_, knownCode_iff_toNat, knownCode_iff_value⟩
  obtain ⟨hpos, hle, heq⟩ := gbytes_of_bwOk hw
  exact ⟨heq, hpos, hle⟩

end Sys2Proof.Machine
end

section
/-! The frame space read at several widths (20_memory.md R32, R33), and when a configuration write reaches the datapath
(R42). -/

namespace Sys2Proof.Machine

/-! ### The sample extractor, one group at a time (43_sample_extractor.md R90) -/

theorem ofNat_shiftLeft (w x n : Nat) : BitVec.ofNat w (x <<< n) = BitVec.ofNat w x <<< n := by
  apply BitVec.eq_of_toNat_eq
  simp [Nat.shiftLeft_eq]

/-- The bytes of a group at the lower offsets hold the sample's less significant bits (R32). -/
theorem ofNat_le_append (as bs : List Byte) :
    BitVec.ofNat 32 (le (as ++ bs)) =
      BitVec.ofNat 32 (le as) ||| BitVec.ofNat 32 (le bs) <<< (8 * as.length) := by
  have hpow : 256 ^ as.length = 2 ^ (8 * as.length) := by rw [Nat.pow_mul]
  have hlt : le as < 2 ^ (8 * as.length) := hpow ▸ le_lt as
  have hor : le (as ++ bs) = le as ||| le bs <<< (8 * as.length) := by
    rw [le_append, hpow, Nat.or_comm, Nat.shiftLeft_eq, Nat.mul_comm (le bs),
      ← Nat.two_pow_add_eq_or_of_lt hlt, Nat.add_comm]
  rw [hor, BitVec.ofNat_or, ofNat_shiftLeft]

theorem ofNat_le_singleton (b : Byte) : BitVec.ofNat 32 (le [b]) = b.setWidth 32 := by
  simp [le]

/-- The first sample of a body that begins with a whole group. -/
theorem sampleAt_append_zero (group more : List Byte) :
    sampleAt group.length (group ++ more) 0 = BitVec.ofNat 32 (le group) := by
  simp [sampleAt]

/-- The samples after the first are those of the body without its first group. -/
theorem sampleAt_append_succ (group more : List Byte) (i : Nat) :
    sampleAt group.length (group ++ more) (i + 1) = sampleAt group.length more i := by
  rw [sampleAt, sampleAt, Nat.succ_mul, Nat.add_comm, ← List.drop_drop, List.drop_left]

/-- A whole group at the front of a body gives its sample first, and the rest of the body gives the others. -/
theorem extract_append {w : Half} (hw : bwOk w = true) {group : List Byte} (hg : group.length = w.toNat / 8)
    (more : List Byte) : ∃ l, extract w more = .ok l ∧
      extract w (group ++ more) = .ok (BitVec.ofNat 32 (le group) :: l) := by
  have hpos : 0 < group.length := by
    obtain ⟨h1, _, heq⟩ := gbytes_of_bwOk hw
    omega
  have hcount : (group ++ more).length / group.length = more.length / group.length + 1 := by
    rw [List.length_append, Nat.add_div_left _ hpos]
  refine ⟨_, by rw [extract, if_pos hw], ?_⟩
  simp only [extract, if_pos hw, ← hg, hcount, List.range_succ_eq_map, List.map_cons, List.map_map,
    sampleAt_append_zero]
  congr 2
  exact List.map_congr_left fun i _ => sampleAt_append_succ group more i

/-- Two whole groups at the front of a body give the first two samples. -/
theorem extract_append_append {w : Half} (hw : bwOk w = true) {fst snd : List Byte} (hf : fst.length = w.toNat / 8)
    (hs : snd.length = w.toNat / 8) (more : List Byte) : ∃ l,
      extract w (fst ++ (snd ++ more)) = .ok (BitVec.ofNat 32 (le fst) :: BitVec.ofNat 32 (le snd) :: l) := by
  obtain ⟨l, _, hl⟩ := extract_append hw hs more
  obtain ⟨l', hl', h⟩ := extract_append hw hf (snd ++ more)
  obtain rfl := Except.ok.inj (hl'.symm.trans hl)
  exact ⟨l, h⟩

/-- Two neighbouring samples of one width are the two halves of the first sample of the double width (R33). -/
theorem extract_double_width {w v : Half} (hw : bwOk w = true) (hv : bwOk v = true) {fst snd : List Byte}
    (hf : fst.length = w.toNat / 8) (hs : snd.length = w.toNat / 8) (hfs : (fst ++ snd).length = v.toNat / 8)
    (more : List Byte) : ∃ s0 s1 l m,
      extract w (fst ++ (snd ++ more)) = .ok (s0 :: s1 :: l) ∧
      extract v (fst ++ (snd ++ more)) = .ok ((s0 ||| s1 <<< (8 * fst.length)) :: m) := by
  obtain ⟨l, hnarrow⟩ := extract_append_append hw hf hs more
  obtain ⟨m, _, hwide⟩ := extract_append hv hfs more
  rw [ofNat_le_append, List.append_assoc] at hwide
  exact ⟨_, _, l, m, hnarrow, hwide⟩

/-- The three bytes of a group of the width 24, each at its place in the sample (43_sample_extractor.md R94). -/
theorem ofNat_le_three (b0 b1 b2 : Byte) :
    BitVec.ofNat 32 (le [b0, b1, b2]) =
      b0.setWidth 32 ||| b1.setWidth 32 <<< 8 ||| b2.setWidth 32 <<< 16 := by
  calc BitVec.ofNat 32 (le ([b0] ++ [b1] ++ [b2]))
      = BitVec.ofNat 32 (le [b0]) ||| BitVec.ofNat 32 (le [b1]) <<< 8 ||| BitVec.ofNat 32 (le [b2]) <<< 16 := by
        rw [ofNat_le_append, ofNat_le_append]; rfl
    _ = _ := by simp only [ofNat_le_singleton]

/-! ### When the datapath sees `CFG_BITWIDTH` (10_state.md R10, 44_frame_engine.md R104) -/

/-- The first beat of a frame latches the width. -/
theorem beat_bw_of_hdr0 {s : State} (hp : s.phase = .hdr0) (d : Byte) (last : Bool) :
    (beat d last s).bw = s.cfgBitwidth := by
  rw [beat, beatWith_hdr0 hp]
  cases last <;> simp [beatHdr0]

/-- A beat of a frame in progress keeps the width its first beat latched. -/
theorem beat_bw_of_ne_hdr0 {s : State} (hp : s.phase ≠ .hdr0) (d : Byte) (last : Bool) :
    (beat d last s).bw = s.bw := by
  obtain ⟨_, _, hbw, _⟩ := beat_writtenAsListed d last s
  exact not_imp_comm.1 hbw hp

theorem runInstrs_cons {i : Instr} {s t : State} (h : exec i s = .next t) (is : List Instr) :
    runInstrs (i :: is) s = runInstrs is t := by
  simp [runInstrs, h]

/-- A configuration write and, one cycle later, a beat. -/
theorem runInstrs_cfgWrite_beat (v : Half) (d : Byte) (last : Bool) (s : State) :
    runInstrs [.cfgWrite v, .beat d last] s = .next (beat d last ((s.writeCfg v).emit [])) := by
  rw [runInstrs_cons (exec_cfgWrite v s), runInstrs_cons (exec_beat d last _), runInstrs]

/-! ### The obligations -/

/-- Settles O25: the bytes of a group split in two assemble to the two halves' OR, the second shifted into place. -/
theorem mixedWidthViewsAgree : Obligations.MixedWidthViewsAgree := by
  refine ⟨fun b0 b1 more => ?_, fun b0 b1 b2 b3 more => ?_, fun b0 b1 b2 more => ?_⟩
  · exact extract_double_width (w := 8) (v := 16) (fst := [b0]) (snd := [b1]) rfl rfl
      (by simp) (by simp) (by simp) more
  · exact extract_double_width (w := 16) (v := 32) (fst := [b0, b1]) (snd := [b2, b3]) rfl rfl
      (by simp) (by simp) (by simp) more
  · obtain ⟨m, _, h⟩ := extract_append (w := 24) (group := [b0, b1, b2]) rfl (by simp) more
    exact ⟨m, ofNat_le_three b0 b1 b2 ▸ h⟩

/-- Settles O31: only a frame's first beat reads `CFG_BITWIDTH`, and it reads the value from before its cycle. -/
theorem configurationIsSeenFromTheNextFrame : Obligations.ConfigurationIsSeenFromTheNextFrame := by
  refine fun s d v => ⟨fun hp => ⟨?_, ?_⟩, fun hp last => ⟨?_, ?_⟩⟩
  · have hbw : (beat d false ((s.writeCfg v).emit [])).bw = v := beat_bw_of_hdr0 (by simpa using hp) d false
    exact ⟨_, runInstrs_cfgWrite_beat v d false s, hbw, by simp⟩
  · exact ⟨_, exec_beatCfg d false v s, beat_bw_of_hdr0 hp d false, rfl⟩
  · have hbw : (beat d last ((s.writeCfg v).emit [])).bw = s.bw := beat_bw_of_ne_hdr0 (by simpa using hp) d last
    exact ⟨_, runInstrs_cfgWrite_beat v d last s, hbw, by simp⟩
  · exact ⟨_, exec_beatCfg d last v s, beat_bw_of_ne_hdr0 hp d last, rfl⟩

end Sys2Proof.Machine
end

section
/-! The rows of the opcode table as functions of their operands (30_encoding.md R59), the decoder said once for each
format in their terms, and with it that decoding and encoding undo each other. -/

namespace Sys2Proof

open Sys2Proof.Machine

/-! ### The rows, and that there are no others -/

/-- The `HDR16` row of a message type, with its operands (R46). -/
def MessageType.row : MessageType → Len → List Byte → Instr
  | .setControlItem => .setControlItem
  | .currentControlItem => .currentControlItem
  | .controlItemRange => .controlItemRange
  | .ack => .ack
  | .dataItem0 => .dataItem0
  | .dataItem1 => .dataItem1
  | .dataItem2 => .dataItem2
  | .dataItem3 => .dataItem3

/-- The `ITEM16` row of an item code, with its parameters (R49). -/
def ItemCode.row : ItemCode → List Byte → Instr
  | .noneItem => .noneItem
  | .receiverState => .receiverState
  | .receiverFrequency => .receiverFrequency
  | .rfFilter => .rfFilter
  | .adModes => .adModes
  | .iqOutputDataSampleRate => .iqOutputDataSampleRate

/-- The `BITWIDTH16` row of a width, with the body it is applied to (R51). -/
def Width.row : Width → List Byte → Instr
  | .w8 => .width8
  | .w16 => .width16
  | .w24 => .width24
  | .w32 => .width32

/-- Every instruction is a row of one of the four formats. -/
theorem Instr.row_cases (i : Instr) :
    (∃ (m : MessageType) (len : Len) (payload : List Byte), i = m.row len payload) ∨
    (∃ (k : ItemCode) (parameters : List Byte), i = k.row parameters) ∨
    (∃ (k : Width) (body : List Byte), i = k.row body) ∨ isPortEvent i = true := by
  cases i with
  | setControlItem len p => exact .inl ⟨.setControlItem, len, p, rfl⟩
  | currentControlItem len p => exact .inl ⟨.currentControlItem, len, p, rfl⟩
  | controlItemRange len p => exact .inl ⟨.controlItemRange, len, p, rfl⟩
  | ack len p => exact .inl ⟨.ack, len, p, rfl⟩
  | dataItem0 len p => exact .inl ⟨.dataItem0, len, p, rfl⟩
  | dataItem1 len p => exact .inl ⟨.dataItem1, len, p, rfl⟩
  | dataItem2 len p => exact .inl ⟨.dataItem2, len, p, rfl⟩
  | dataItem3 len p => exact .inl ⟨.dataItem3, len, p, rfl⟩
  | noneItem ps => exact .inr (.inl ⟨.noneItem, ps, rfl⟩)
  | receiverState ps => exact .inr (.inl ⟨.receiverState, ps, rfl⟩)
  | receiverFrequency ps => exact .inr (.inl ⟨.receiverFrequency, ps, rfl⟩)
  | rfFilter ps => exact .inr (.inl ⟨.rfFilter, ps, rfl⟩)
  | adModes ps => exact .inr (.inl ⟨.adModes, ps, rfl⟩)
  | iqOutputDataSampleRate ps => exact .inr (.inl ⟨.iqOutputDataSampleRate, ps, rfl⟩)
  | width8 body => exact .inr (.inr (.inl ⟨.w8, body, rfl⟩))
  | width16 body => exact .inr (.inr (.inl ⟨.w16, body, rfl⟩))
  | width24 body => exact .inr (.inr (.inl ⟨.w24, body, rfl⟩))
  | width32 body => exact .inr (.inr (.inl ⟨.w32, body, rfl⟩))
  | _ => exact .inr (.inr (.inr rfl))

@[simp] theorem encode_messageRow (m : MessageType) (len : Len) (payload : List Byte) :
    encode (m.row len payload) = .frame (messageBytes m len payload) := by cases m <;> rfl

@[simp] theorem encode_itemRow (k : ItemCode) (parameters : List Byte) :
    encode (k.row parameters) = .item (itemBytes k parameters) := by cases k <;> rfl

@[simp] theorem encode_widthRow (k : Width) (body : List Byte) : encode (k.row body) = .body k.value body := by
  cases k <;> rfl

@[simp] theorem wellFormed_widthRow (k : Width) (body : List Byte) : (k.row body).wellFormed = !body.isEmpty := by
  cases k <;> rfl

/-! ### The tables, back and forth (R46, R49, R51) -/

@[simp] theorem MessageType.ofTag_tag (m : MessageType) : MessageType.ofTag m.tag = m := by cases m <;> rfl

theorem ItemCode.ofValue_eq_some_iff {c : Half} {k : ItemCode} : ItemCode.ofValue c = some k ↔ k.value = c := by
  refine ⟨ItemCode.value_of_ofValue, ?_⟩
  rintro rfl
  cases k <;> rfl

theorem Width.ofValue_eq_some_iff {w : Half} {k : Width} : Width.ofValue w = some k ↔ k.value = w := by
  refine ⟨Width.value_of_ofValue, ?_⟩
  rintro rfl
  cases k <;> rfl

theorem ItemCode.ofValue_eq_none_iff {c : Half} : ItemCode.ofValue c = none ↔ ¬ knownCode c = true := by
  simp only [knownCode_iff_value, Option.eq_none_iff_forall_ne_some, ne_eq, ItemCode.ofValue_eq_some_iff, not_exists]

theorem bwOk_iff_value (w : Half) : bwOk w = true ↔ ∃ k : Width, k.value = w := by
  constructor
  · intro h
    obtain rfl | rfl | rfl | rfl := bwOk_cases h
    exacts [⟨.w8, rfl⟩, ⟨.w16, rfl⟩, ⟨.w24, rfl⟩, ⟨.w32, rfl⟩]
  · rintro ⟨k, rfl⟩
    cases k <;> rfl

theorem Width.ofValue_eq_none_iff {w : Half} : Width.ofValue w = none ↔ ¬ bwOk w = true := by
  simp only [bwOk_iff_value, Option.eq_none_iff_forall_ne_some, ne_eq, Width.ofValue_eq_some_iff, not_exists]

@[simp] theorem typeOf_pack (t : Tag) (len : Len) : typeOf (pack t len) = t := by
  apply BitVec.eq_of_getLsbD_eq
  intro i hi
  simp [typeOf, getLsbD_pack, hi]

@[simp] theorem lengthOf_pack (t : Tag) (len : Len) : lengthOf (pack t len) = len := by
  apply BitVec.eq_of_getLsbD_eq
  intro i hi
  simp [lengthOf, getLsbD_pack, hi]

/-! ### What the decoder answers, format by format (R59) -/

theorem decodeHeader_eq (h : Half) (payload : List Byte) :
    decodeHeader h payload = (MessageType.ofTag (typeOf h)).row (lengthOf h) payload := by
  unfold decodeHeader
  cases MessageType.ofTag (typeOf h) <;> rfl

theorem decodeItem_eq (c : Half) (parameters : List Byte) :
    decodeItem c parameters =
      (ItemCode.ofValue c).elim (.error (.unknownItemCode c)) fun k => .ok (k.row parameters) := by
  unfold decodeItem
  cases ItemCode.ofValue c with
  | none => rfl
  | some k => cases k <;> rfl

theorem decodeWidth_eq (w : Half) (body : List Byte) :
    decodeWidth w body = (Width.ofValue w).elim (.error (.illegalWidth w)) fun k => .ok (k.row body) := by
  unfold decodeWidth
  cases Width.ofValue w with
  | none => rfl
  | some k => cases k <;> rfl

theorem decodeItem_eq_ok_iff {c : Half} {parameters : List Byte} {i : Instr} :
    decodeItem c parameters = .ok i ↔ ∃ k : ItemCode, k.value = c ∧ i = k.row parameters := by
  rw [decodeItem_eq]
  cases hc : ItemCode.ofValue c with
  | none => simp [← ItemCode.ofValue_eq_some_iff, hc]
  | some k => simpa [← ItemCode.ofValue_eq_some_iff, hc] using eq_comm

theorem decodeWidth_eq_ok_iff {w : Half} {body : List Byte} {i : Instr} :
    decodeWidth w body = .ok i ↔ ∃ k : Width, k.value = w ∧ i = k.row body := by
  rw [decodeWidth_eq]
  cases hw : Width.ofValue w with
  | none => simp [← Width.ofValue_eq_some_iff, hw]
  | some k => simpa [← Width.ofValue_eq_some_iff, hw] using eq_comm

theorem decodeItem_eq_unknown_iff {c : Half} {parameters : List Byte} :
    decodeItem c parameters = .error (.unknownItemCode c) ↔ ¬ knownCode c = true := by
  rw [decodeItem_eq, ← ItemCode.ofValue_eq_none_iff]
  cases ItemCode.ofValue c <;> simp

theorem decodeWidth_eq_illegal_iff {w : Half} {body : List Byte} :
    decodeWidth w body = .error (.illegalWidth w) ↔ ¬ bwOk w = true := by
  rw [decodeWidth_eq, ← Width.ofValue_eq_none_iff]
  cases Width.ofValue w <;> simp

/-- A frame decodes exactly when it is the bytes of a message: a header is its two fields, packed (R45, R67). -/
theorem decode_frame_eq_ok_iff {bytes : List Byte} {i : Instr} :
    decode (.frame bytes) = .ok i ↔
      ∃ m len payload, bytes = messageBytes m len payload ∧ i = m.row len payload := by
  constructor
  · intro h
    match bytes, h with
    | b0 :: b1 :: payload, h =>
      refine ⟨_, _, payload, ?_, (Except.ok.inj h).symm.trans (decodeHeader_eq (le16 b0 b1) payload)⟩
      simp [messageBytes_ofTag]
  · rintro ⟨m, len, payload, rfl, rfl⟩
    simp [messageBytes, le16Bytes, decode, decodeHeader_eq]

/-- The rest of a control-class frame decodes exactly when it is the bytes of a known item code (R48, R49). -/
theorem decode_item_eq_ok_iff {bytes : List Byte} {i : Instr} :
    decode (.item bytes) = .ok i ↔
      ∃ (k : ItemCode) (parameters : List Byte), bytes = itemBytes k parameters ∧ i = k.row parameters := by
  constructor
  · intro h
    match bytes, h with
    | b2 :: b3 :: parameters, h =>
      obtain ⟨k, hk, rfl⟩ := decodeItem_eq_ok_iff.1 h
      exact ⟨k, parameters, by simp [itemBytes, hk], rfl⟩
  · rintro ⟨k, parameters, rfl, rfl⟩
    simpa [itemBytes, le16Bytes, decode] using decodeItem_eq_ok_iff.2 ⟨k, rfl, rfl⟩

/-- A width with its body decodes exactly when it is legal and the body holds a byte (R51). -/
theorem decode_body_eq_ok_iff {w : Half} {body : List Byte} {i : Instr} :
    decode (.body w body) = .ok i ↔ body ≠ [] ∧ ∃ k : Width, k.value = w ∧ i = k.row body := by
  cases body with
  | nil => simp [decode]
  | cons b bs => simpa [decode] using decodeWidth_eq_ok_iff (body := b :: bs)

/-! ### The control inputs (R56) -/

/-- The five rows of the control inputs cover their eight values. -/
theorem ctl_cases (c : BitVec 3) : c.getLsbD 2 = true ∨ c = 0b010 ∨ c = 0b001 ∨ c = 0b011 ∨ c = 0b000 := by
  revert c; decide

/-- The test of the decoder on `rst` is the mask and match of the row of `RESET`. -/
theorem ctl_and_four_iff {c : BitVec 3} : c &&& 0x4 = 0x4 ↔ c.getLsbD 2 = true := by
  revert c; decide

theorem decodePins_of_rst {p : Pins} (h : p.ctl.getLsbD 2 = true) : decodePins p = .reset :=
  if_pos (ctl_and_four_iff.2 h)

section
variable (d : Byte) (last : Bool) (v : Half)

@[simp] theorem decodePins_cfgWrite :
    decodePins { ctl := 0b010#3, inData := d, inLast := last, cfgWdata := v } = .cfgWrite v := by simp [decodePins]

@[simp] theorem decodePins_beat :
    decodePins { ctl := 0b001#3, inData := d, inLast := last, cfgWdata := v } = .beat d last := by simp [decodePins]

@[simp] theorem decodePins_beatCfg :
    decodePins { ctl := 0b011#3, inData := d, inLast := last, cfgWdata := v } = .beatCfg d last v := by
  simp [decodePins]

@[simp] theorem decodePins_idle :
    decodePins { ctl := 0b000#3, inData := d, inLast := last, cfgWdata := v } = .idle := by simp [decodePins]

end

theorem decode_encode_portEvent {i : Instr} (h : isPortEvent i = true) : decode (encode i) = .ok i := by
  obtain rfl | ⟨v, rfl⟩ | ⟨d, last, rfl⟩ | ⟨d, last, v, rfl⟩ | rfl := isPortEvent_cases h
  · rfl
  · exact congrArg Except.ok (decodePins_cfgWrite 0 false v)
  · exact congrArg Except.ok (decodePins_beat d last 0)
  · exact congrArg Except.ok (decodePins_beatCfg d last v)
  · exact congrArg Except.ok (decodePins_idle 0 false 0)

/-! ### Decoding and encoding -/

theorem decode_encode {i : Instr} (h : i.wellFormed = true) : decode (encode i) = .ok i := by
  obtain ⟨m, len, payload, rfl⟩ | ⟨k, parameters, rfl⟩ | ⟨k, body, rfl⟩ | hport := i.row_cases
  · exact encode_messageRow m len payload ▸ decode_frame_eq_ok_iff.2 ⟨m, len, payload, rfl, rfl⟩
  · exact encode_itemRow k parameters ▸ decode_item_eq_ok_iff.2 ⟨k, parameters, rfl, rfl⟩
  · exact encode_widthRow k body ▸ decode_body_eq_ok_iff.2 ⟨by simpa using h, k, rfl, rfl⟩
  · exact decode_encode_portEvent hport

theorem encode_of_decode {c : Code} {i : Instr} (hc : ∀ p, c ≠ .pins p) (h : decode c = .ok i) : encode i = c := by
  cases c with
  | frame bytes =>
    obtain ⟨m, len, payload, rfl, rfl⟩ := decode_frame_eq_ok_iff.1 h
    exact encode_messageRow m len payload
  | item bytes =>
    obtain ⟨k, parameters, rfl, rfl⟩ := decode_item_eq_ok_iff.1 h
    exact encode_itemRow k parameters
  | body w bytes =>
    obtain ⟨_, k, rfl, rfl⟩ := decode_body_eq_ok_iff.1 h
    exact encode_widthRow k bytes
  | pins p => exact absurd rfl (hc p)

/-! ### The word of a row (R59) -/

/-- The word of every encoding matches its row: the laws of the single rows, gathered. -/
theorem encode_matchesRow (i : Instr) : Laws.MatchesRow.Statement i := by
  cases i with
  | setControlItem len p => exact Laws.MatchesRow.setControlItem len p
  | currentControlItem len p => exact Laws.MatchesRow.currentControlItem len p
  | controlItemRange len p => exact Laws.MatchesRow.controlItemRange len p
  | ack len p => exact Laws.MatchesRow.ack len p
  | dataItem0 len p => exact Laws.MatchesRow.dataItem0 len p
  | dataItem1 len p => exact Laws.MatchesRow.dataItem1 len p
  | dataItem2 len p => exact Laws.MatchesRow.dataItem2 len p
  | dataItem3 len p => exact Laws.MatchesRow.dataItem3 len p
  | noneItem ps => exact Laws.MatchesRow.noneItem ps
  | receiverState ps => exact Laws.MatchesRow.receiverState ps
  | receiverFrequency ps => exact Laws.MatchesRow.receiverFrequency ps
  | rfFilter ps => exact Laws.MatchesRow.rfFilter ps
  | adModes ps => exact Laws.MatchesRow.adModes ps
  | iqOutputDataSampleRate ps => exact Laws.MatchesRow.iqOutputDataSampleRate ps
  | width8 body => exact Laws.MatchesRow.width8 body
  | width16 body => exact Laws.MatchesRow.width16 body
  | width24 body => exact Laws.MatchesRow.width24 body
  | width32 body => exact Laws.MatchesRow.width32 body
  | reset => exact Laws.MatchesRow.reset
  | cfgWrite v => exact Laws.MatchesRow.cfgWrite v
  | beat d last => exact Laws.MatchesRow.beat d last
  | beatCfg d last v => exact Laws.MatchesRow.beatCfg d last v
  | idle => exact Laws.MatchesRow.idle

/-- The control inputs match the row they select: `RESET` compares one bit of them, the others all three. -/
theorem decodePins_matchesRow (p : Pins) : p.ctl.toNat &&& (decodePins p).rowMask = (decodePins p).rowMatch := by
  obtain ⟨ctl, d, last, v⟩ := p
  obtain hrst | rfl | rfl | rfl | rfl := ctl_cases ctl
  · rw [decodePins_of_rst hrst]
    exact congrArg BitVec.toNat (ctl_and_four_iff.2 hrst)
  all_goals simp [Instr.rowMask, Instr.rowMatch]

theorem decode_matchesRow {c : Code} {i : Instr} {w : Nat} (h : decode c = .ok i) (hw : c.tableWord = some w) :
    w &&& i.rowMask = i.rowMatch := by
  by_cases hc : ∃ p, c = .pins p
  · obtain ⟨p, rfl⟩ := hc
    obtain rfl := Except.ok.inj h
    obtain rfl := Option.some.inj hw
    exact decodePins_matchesRow p
  · obtain ⟨v, hv, hrow⟩ := encode_matchesRow i
    rw [encode_of_decode (fun p hp => hc ⟨p, hp⟩) h, hw] at hv
    rwa [Option.some.inj hv]

/-! ### The class of a header (R46, R47) -/

theorem isData_eq_typeOf (h : Half) : isData h = (typeOf h).getLsbD 2 := by
  simp [isData, typeOf]

/-- The top bit of a type is set exactly for the four data item types. -/
theorem tag_topBit_iff (t : Tag) :
    t.getLsbD 2 = true ↔ MessageType.ofTag t ∈ [.dataItem0, .dataItem1, .dataItem2, .dataItem3] := by
  revert t; decide

/-! ### The obligations -/

/-- Settles O1: the formats' rows are all there is, and of each the decoder gives back its operands. -/
theorem decodeOfEncodeIsTheInstruction : Obligations.DecodeOfEncodeIsTheInstruction := fun _ => decode_encode

/-- Settles O2: what decodes is the bytes of a row, and they are that row's encoding. -/
theorem encodeOfDecodeIsTheBytes : Obligations.EncodeOfDecodeIsTheBytes := fun _ _ => encode_of_decode

/-- Settles O3: by O2 the word is that of the row's encoding; the control inputs are compared with their own row. -/
theorem decodedRowMatchesItsWord : Obligations.DecodedRowMatchesItsWord := fun _ _ _ => decode_matchesRow

/-- Settles O4: the two tables answer nothing exactly outside the known codes and the legal widths. -/
theorem wordsWithoutARowAreRejectedByName : Obligations.WordsWithoutARowAreRejectedByName := by
  refine ⟨fun b2 b3 ps => ?_, fun w b bs => ?_, fun b0 b1 bs => ⟨_, rfl⟩, fun p => ⟨_, rfl⟩⟩
  · rw [← knownCode_iff_toNat]
    exact decodeItem_eq_unknown_iff
  · have hlegal : bwOk w = true ↔ w.toNat ∈ [8, 16, 24, 32] := by simpa using bwOk_iff_toNat w
    rw [← hlegal]
    exact decodeWidth_eq_illegal_iff

/-- Settles O5, by evaluation of the decoder on the written words. -/
theorem writtenWordsDecode : Obligations.WrittenWordsDecode :=
  ⟨rfl, rfl, rfl, rfl, rfl, rfl, rfl, rfl, rfl⟩

/-- Settles O14: the class of a header is the top bit of its type field, which the tag table spends on the class. -/
theorem typeTableIsABijectionAndGivesTheClass : Obligations.TypeTableIsABijectionAndGivesTheClass :=
  ⟨MessageType.ofTag_tag, MessageType.tag_ofTag, isData_eq_typeOf,
    fun h => isData_eq_typeOf h ▸ tag_topBit_iff (typeOf h)⟩

/-- Settles O26: `rst` alone decides `RESET`; with it low the other two inputs select the row. -/
theorem controlInputsSelectTheEvent : Obligations.ControlInputsSelectTheEvent := fun d last v =>
  ⟨fun _ hrst => decodePins_of_rst hrst, decodePins_cfgWrite d last v, decodePins_beat d last v,
    decodePins_beatCfg d last v, decodePins_idle d last v⟩

end Sys2Proof
end

section
/-! What a step fetches and runs: the row that the place selects, an instruction put in its place, and a `frame` line
as the beats of its bytes (30_encoding.md R58, R59). -/

namespace Sys2Proof.Machine

/-! ### What is fetched is what is decoded -/

theorem decodeFrame_eq_some_iff {s : State} {bytes : List Byte} {i : Instr} :
    decodeFrame s bytes = some i ↔ ∃ c, frameCode s bytes = some c ∧ decode c = .ok i := by
  unfold decodeFrame
  cases hf : frameCode s bytes with
  | none => simp
  | some c =>
    cases hd : decode c with
    | error e => simp [hd, Except.toOption]
    | ok j => simp [hd, Except.toOption]

theorem step_idle {s : State} (h : s.input = []) : step s = exec .idle s := by
  have hs : s.withInput [] = s := by simp [State.withInput, ← h]
  rw [step, fetch_empty h, hs]

theorem step_cycle {s : State} {p : Pins} {more : List Stimulus} (h : s.input = .cycle p :: more) :
    step s = exec (decodePins p) (s.withInput more) := by
  rw [step, fetch_cycle h]

theorem step_row {s : State} {b : Byte} {bs : List Byte} {more : List Stimulus} {i : Instr}
    (h : s.input = .frame b bs :: more) (hi : decodeFrame s (b :: bs) = some i) :
    step s = exec i (s.withInput more) := by
  rw [step, fetch_row h hi]

theorem step_beat {s : State} {b : Byte} {bs : List Byte} {more : List Stimulus}
    (h : s.input = .frame b bs :: more) (hi : decodeFrame s (b :: bs) = none) :
    step s = exec (.beat b bs.isEmpty) (s.withInput (frameRest bs more)) := by
  rw [step, fetch_beat h hi]

/-! ### An instruction in its place -/

theorem isData_and_classMask (h : Half) : isData (h &&& 0x7FFF#16) = false := by simp [isData]

theorem isData_or_classBit (h : Half) : isData (h ||| 0x8000#16) = true := by simp [isData]

/-- What decodes is, put in its place, what the next step runs. -/
theorem step_place {c : Code} {i : Instr} (h : decode c = .ok i) (s : State) :
    step (place c s) = exec i ((place c s).withInput s.input) := by
  match c, h with
  | .pins p, h =>
    obtain rfl := Except.ok.inj h
    exact step_cycle rfl
  | .frame (b :: bs), h => exact step_row rfl (decodeFrame_eq_some_iff.2 ⟨_, rfl, h⟩)
  | .item (b :: bs), h =>
    refine step_row rfl (decodeFrame_eq_some_iff.2 ⟨_, ?_, h⟩)
    simp [frameCode, place, isData_and_classMask]
  | .body w (b :: bs), h =>
    refine step_row rfl (decodeFrame_eq_some_iff.2 ⟨_, ?_, h⟩)
    simp [frameCode, place, isData_or_classBit]

/-! ### A row of bytes as beats -/

/-- Beats one after another, the last with `last` = 1, are the row of bytes presented (R58). -/
theorem runInstrs_framed (bytes : List Byte) (s : State) :
    runInstrs ((framed bytes).map fun x => .beat x.1 x.2) s = .next (present bytes s) := by
  induction bytes generalizing s with
  | nil => rfl
  | cons b bs ih => exact (runInstrs_cons (exec_beat b bs.isEmpty s) _).trans (ih _)

/-! ### The six item codes -/

theorem exec_itemRow (k : ItemCode) (parameters : List Byte) (s : State) :
    exec (k.row parameters) s = .next (present (itemBytes k parameters) s) :=
  exec_of_decodeItem (decodeItem_eq_ok_iff.2 ⟨k, rfl, rfl⟩) s

/-- The `Done` record of a control-class frame with the header `h` and the known code `c` (44_frame_engine.md R110). -/
def doneControl (h c : Half) : DoneRecord where
  status := .ok
  isData := false
  type := (unpack h).1
  length := (unpack h).2
  item := c
  seq := 0
  seqPresent := false
  sse := false

theorem finishFull_control {h : Half} (hd : isData h = false) (c : Half) (seqp sse : Bool) :
    finishFull h c seqp true sse = doneControl h c := by
  simp [finishFull, hd, doneControl]

/-- The two bytes of a known item code in their place: the code is taken, and the frame ends or its body begins
(44_frame_engine.md R106, R107). -/
theorem beat_beat_itemCode {s : State} (hp : s.phase = .aux0) (hd : isData s.hdr = false) {c : Half}
    (hc : knownCode c = true) (last : Bool) :
    beat (highByte c) last (beat (lowByte c) false s) =
      { s with
        aux := c, codeOk := true, phase := if last then .hdr0 else .body
        outputs := s.outputs ++ [[], .aux false c true :: if last then [.done (doneControl s.hdr c)] else []] } := by
  have hlow : beat (lowByte c) false s = (s.writeAuxLow (lowByte c)).advance .aux1 [] := by
    simp [beat, beatWith_aux0 hp, beatAux0]
  rw [hlow, beat, beatWith_aux1 rfl]
  cases last <;>
    simp [beatAux1, hd, hc, finishFull_control, State.advance, State.endFrame, State.emit, State.writePhase,
      State.writeAuxLow, State.writeAuxHigh, State.writeCodeOk]

theorem present_itemBytes (k : ItemCode) (parameters : List Byte) {s : State} (hp : s.phase = .aux0)
    (hd : isData s.hdr = false) :
    present (itemBytes k parameters) s = { s with
      aux := k.value, codeOk := true, phase := .hdr0
      outputs := s.outputs ++ closeWith (doneControl s.hdr k.value)
        ([[], [.aux false k.value true]] ++ parameters.map fun d => [.body d]) } := by
  have hcode := beat_beat_itemCode hp hd (knownCode_value k) parameters.isEmpty
  have hunfold : present (itemBytes k parameters) s =
      present parameters (beat (highByte k.value) parameters.isEmpty (beat (lowByte k.value) false s)) := rfl
  rw [hunfold, hcode]
  cases parameters with
  | nil => rfl
  | cons b bs =>
    rw [present_controlBody (b :: bs) (by simp) _ rfl (by simpa using hd)]
    simp [finishFull_control hd, closeWith]

/-! ### The obligations -/

/-- Settles O6: each of the four clauses is what `fetch` answers in its case. -/
theorem stepRunsTheDecodedInstruction : Obligations.StepRunsTheDecodedInstruction := by
  refine fun s => ⟨fun p more h => step_cycle h, fun b bs more c i h hc hi => ?_, fun b bs more h hnone => ?_, step_idle⟩
  · exact step_row h (decodeFrame_eq_some_iff.2 ⟨c, hc, hi⟩)
  · refine step_beat h (Option.eq_none_iff_forall_ne_some.2 fun i hi => ?_)
    obtain ⟨c, hc, hdec⟩ := decodeFrame_eq_some_iff.1 hi
    exact hnone c i hc hdec

/-- Settles O7: the encoding decodes (O1), and what decodes is run from its place. -/
theorem placedInstructionIsTheNextStep : Obligations.PlacedInstructionIsTheNextStep :=
  fun _ s hi => step_place (decode_encode hi) s

/-- Settles O8: the row presents the line's bytes as plain beats, and so do the beats one after another. -/
theorem frameLineIsItsBeats : Obligations.FrameLineIsItsBeats := fun s b bs more i h hi =>
  calc step s = exec i (s.withInput more) := step_row h hi
    _ = .next (present (b :: bs) (s.withInput more)) := exec_of_decodeFrame hi more
    _ = _ := (runInstrs_framed (b :: bs) _).symm

/-- Settles O10, by evaluation of the builders on the spec's examples. -/
theorem notationLinesExpandAsWritten : Obligations.NotationLinesExpandAsWritten := ⟨rfl, rfl, rfl⟩

/-- Settles O42: the six pairs are the table of the item codes, and each of these codes is known. -/
theorem itemCodesComplete : Obligations.ItemCodesComplete := by
  intro ps s hp hd i c hi
  obtain ⟨k, rfl, rfl⟩ : ∃ k : ItemCode, i = k.row ps ∧ c = k.value := by
    simp only [List.mem_cons, Prod.mk.injEq, List.not_mem_nil, or_false] at hi
    obtain ⟨rfl, rfl⟩ | ⟨rfl, rfl⟩ | ⟨rfl, rfl⟩ | ⟨rfl, rfl⟩ | ⟨rfl, rfl⟩ | ⟨rfl, rfl⟩ := hi
    exacts [⟨.noneItem, rfl, rfl⟩, ⟨.receiverState, rfl, rfl⟩, ⟨.receiverFrequency, rfl, rfl⟩, ⟨.rfFilter, rfl, rfl⟩,
      ⟨.adModes, rfl, rfl⟩, ⟨.iqOutputDataSampleRate, rfl, rfl⟩]
  rw [exec_itemRow, present_itemBytes k ps hp hd]
  rfl

end Sys2Proof.Machine
end

section
/-! The header codec (40_header_codec.md): `UNPACK` as a shift and a mask, `PACK` as an OR that is a sum, and the two as
each other's inverse. The laws `toNat_pack`, `pack_typeOf_lengthOf`, `typeOf_pack` and `lengthOf_pack` carry the
obligations. -/

namespace Sys2Proof.Machine

/-! ### The two fields of a header as numbers (R65) -/

theorem toNat_typeOf (h : Half) : (typeOf h).toNat = h.toNat >>> 13 := by
  have hlt : h.toNat >>> 13 < 2 ^ 3 := by
    have hh := h.isLt
    rw [Nat.shiftRight_eq_div_pow]
    omega
  rw [typeOf, BitVec.extractLsb'_toNat, Nat.mod_eq_of_lt hlt]

theorem toNat_lengthOf (h : Half) : (lengthOf h).toNat = h.toNat &&& 0x1FFF := by
  rw [lengthOf, BitVec.extractLsb'_toNat, Nat.shiftRight_zero]
  exact (Nat.and_two_pow_sub_one_eq_mod h.toNat 13).symm

/-! ### The packed header as a number (R66, R68) -/

theorem toNat_pack_eq_add_shiftLeft (t : Tag) (len : Len) :
    (pack t len).toNat = len.toNat + (t.toNat <<< 13) := by
  rw [toNat_pack, Nat.shiftLeft_eq, Nat.mul_comm]

/-- The length stays below bit 13, where the shifted type begins, so adding the two carries nothing. -/
theorem length_or_shiftLeft_eq_add (t : Tag) (len : Len) :
    len.toNat ||| (t.toNat <<< 13) = len.toNat + (t.toNat <<< 13) := by
  rw [Nat.or_comm, Nat.add_comm, Nat.shiftLeft_add_eq_or_of_lt len.isLt]

/-- A header less its shifted type is its length: the header is the sum of its two fields, packed again. -/
theorem toNat_lengthOf_eq_sub (h : Half) : (lengthOf h).toNat = h.toNat - ((typeOf h).toNat <<< 13) := by
  have hsum := toNat_pack_eq_add_shiftLeft (typeOf h) (lengthOf h)
  rw [pack_typeOf_lengthOf] at hsum
  exact Nat.eq_sub_of_add_eq hsum.symm

/-! ### The obligations -/

/-- Settles O11: the shift and the mask are the fields' values, and the subtraction undoes the sum of R68. -/
theorem unpackIsShiftAndMask : Obligations.UnpackIsShiftAndMask := fun h =>
  ⟨toNat_typeOf h, toNat_lengthOf h, toNat_lengthOf_eq_sub h⟩

/-- Settles O12: the packed header is the sum, and the sum is the OR as the two fields share no bit. -/
theorem packIsOrAndSum : Obligations.PackIsOrAndSum := fun t len =>
  have hsum := toNat_pack_eq_add_shiftLeft t len
  ⟨hsum.trans (length_or_shiftLeft_eq_add t len).symm, hsum⟩

/-- Settles O13: a packed header gives back both fields, and a header's fields pack to the header. -/
theorem packAndUnpackAreInverse : Obligations.PackAndUnpackAreInverse :=
  ⟨fun t len => Prod.ext (typeOf_pack t len) (lengthOf_pack t len), pack_typeOf_lengthOf⟩

end Sys2Proof.Machine
end

section
/-! Control-item frames in the function layer (41_control_item.md): `PARSE_CONTROL` by length and code, `BUILD_CONTROL`
by its limit. -/

namespace Sys2Proof.Machine

theorem le16Bytes_le16_append (a b : Byte) (bs : List Byte) : le16Bytes (le16 a b) ++ bs = a :: b :: bs := by simp

/-- The type is the top three bits of the header's high byte (30_encoding.md R45). -/
theorem toNat_typeOf_le16 (b0 b1 : Byte) : (typeOf (le16 b0 b1)).toNat = b1.toNat / 32 := by
  have h0 := b0.isLt
  rw [toNat_typeOf, toNat_le16, Nat.shiftRight_eq_div_pow]
  omega

/-! ### `PARSE_CONTROL` (R70) -/

theorem parseControl_of_length_lt {b : List Byte} (h : b.length < 4) :
    parseControl b = .error (.invalidFrame .tooShort) := by
  match b, h with
  | [], _ => rfl
  | [_], _ => rfl
  | [_, _], _ => rfl
  | [_, _, _], _ => rfl

/-- With its four fixed bytes there, a frame parses exactly when its code is known. -/
theorem parseControl_le16Bytes (h c : Half) (body : List Byte) :
    parseControl (le16Bytes h ++ (le16Bytes c ++ body)) =
      if knownCode c then .ok { type := typeOf h, item := c, seq := 0x0000, body := body }
      else .error (.invalidFrame .unknownCode) := by
  simp [le16Bytes, parseControl, unpack]

/-! ### `BUILD_CONTROL` (R76) -/

/-- The header that `BUILD_CONTROL` writes over `n` parameter bytes. -/
def controlHeader (t : Tag) (n : Nat) : Half := pack t (BitVec.ofNat 13 (4 + n))

@[simp] theorem typeOf_controlHeader (t : Tag) (n : Nat) : typeOf (controlHeader t n) = t := typeOf_pack t _

@[simp] theorem lengthOf_controlHeader (t : Tag) (n : Nat) :
    lengthOf (controlHeader t n) = BitVec.ofNat 13 (4 + n) := lengthOf_pack t _

theorem buildControl_of_length_gt {ps : List Byte} (h : 8187 < ps.length) (t : Tag) (c : Half) :
    buildControl t c ps = .error .lengthExceeded := if_pos h

theorem buildControl_of_length_le {ps : List Byte} (h : ps.length ≤ 8187) (t : Tag) (c : Half) :
    buildControl t c ps = .ok (le16Bytes (controlHeader t ps.length) ++ (le16Bytes c ++ ps)) :=
  if_neg (Nat.not_lt.2 h)

/-- Up to the limit the length field does not wrap. -/
theorem toNat_lengthOf_controlHeader {n : Nat} (h : n ≤ 8187) (t : Tag) :
    (lengthOf (controlHeader t n)).toNat = 4 + n := by
  rw [lengthOf_controlHeader, BitVec.toNat_ofNat, Nat.mod_eq_of_lt (by omega)]

/-! ### The obligations -/

/-- Settles O16: the length is compared first, and then the code with the six known ones. -/
theorem parseControlByLengthThenCode : Obligations.ParseControlByLengthThenCode := by
  refine fun b => ⟨parseControl_of_length_lt, ?_⟩
  rintro b0 b1 b2 b3 body rfl
  have hparse := parseControl_le16Bytes (le16 b0 b1) (le16 b2 b3) body
  rw [le16Bytes_le16_append, le16Bytes_le16_append] at hparse
  rw [hparse, ← toNat_le16 b2 b3, ← knownCode_iff_toNat]
  exact ⟨fun hc => ⟨_, if_pos hc, toNat_typeOf_le16 b0 b1, rfl, rfl, rfl⟩, fun hc => if_neg hc⟩

/-- Settles O17: the two cases of the limit; up to it the length field holds the whole length. -/
theorem buildControlLayoutAndLimit : Obligations.BuildControlLayoutAndLimit := by
  refine fun t c ps => ⟨fun h => buildControl_of_length_gt h t c, fun h => ?_⟩
  refine ⟨_, _, _, _, buildControl_of_length_le h t c, ?_, ?_, le16_lowByte_highByte c⟩
  · rw [le16_lowByte_highByte]
    exact typeOf_controlHeader t ps.length
  · rw [le16_lowByte_highByte]
    exact toNat_lengthOf_controlHeader h t

end Sys2Proof.Machine
end

section
/-! A frame's four fixed bytes in the engine (44_frame_engine.md R104 to R107), what the engine delivers of a frame
whose body it emits, and the four control messages whole. -/

namespace Sys2Proof.Machine

/-! ### The header (R104, R105) -/

/-- What the two bytes of the header `h` write but for `PHASE`. -/
def State.takeHeader (h : Half) (s : State) : State :=
  { s with
    hdr := h, bw := s.cfgBitwidth, acc := 0, gidx := 0, sse := sampleSizeError h s.cfgBitwidth, codeOk := false
    seqp := false }

/-- The records of the header `h` under the latched width `bw`, at its second byte. -/
def headerRecords (h bw : Half) : List Record :=
  .hdr (unpack h).1 (unpack h).2 (isData h) :: if sampleSizeError h bw then [.sse] else []

/-- The state in which the engine has taken a header and waits for the byte at offset 2. -/
def State.afterHeader (h : Half) (s : State) : State :=
  ((s.takeHeader h).emit []).advance .aux0 (headerRecords h s.cfgBitwidth)

@[simp] theorem State.afterHeader_hdr (h : Half) (s : State) : (s.afterHeader h).hdr = h := rfl
@[simp] theorem State.afterHeader_phase (h : Half) (s : State) : (s.afterHeader h).phase = .aux0 := rfl
@[simp] theorem State.afterHeader_sse (h : Half) (s : State) :
    (s.afterHeader h).sse = sampleSizeError h s.cfgBitwidth := rfl

/-- The two bytes of a header, at the start of a frame. -/
theorem beat_beat_header {s : State} (hp : s.phase = .hdr0) (h : Half) (last : Bool) :
    beat (highByte h) last (beat (lowByte h) false s) =
      if last then
        ((s.takeHeader h).emit []).endFrame (headerRecords h s.cfgBitwidth)
          (finishEarly h (sampleSizeError h s.cfgBitwidth))
      else s.afterHeader h := by
  have hlow : beat (lowByte h) false s = (s.startFrame (lowByte h)).advance .hdr1 [] := by
    simp [beat, beatWith_hdr0 hp, beatHdr0]
  rw [hlow, beat, beatWith_hdr1 rfl]
  cases last <;>
    simp [beatHdr1, headerRecords, State.afterHeader, State.takeHeader, State.advance, State.endFrame, State.emit,
      State.writePhase, State.startFrame, State.writeHdrHigh, State.raiseSse]

/-- Two bytes of a 16-bit value and what follows them, presented. -/
theorem present_le16Bytes (v : Half) (bytes : List Byte) (s : State) :
    present (le16Bytes v ++ bytes) s =
      present bytes (beat (highByte v) bytes.isEmpty (beat (lowByte v) false s)) := rfl

theorem present_header {s : State} (hp : s.phase = .hdr0) (h : Half) {bytes : List Byte} (hb : bytes ≠ []) :
    present (le16Bytes h ++ bytes) s = present bytes (s.afterHeader h) := by
  have hlast : bytes.isEmpty = false := by simpa using hb
  rw [present_le16Bytes, beat_beat_header hp, hlast]
  rfl

/-- A frame that is its header alone. -/
theorem present_header_last {s : State} (hp : s.phase = .hdr0) (h : Half) :
    present (le16Bytes h) s =
      ((s.takeHeader h).emit []).endFrame (headerRecords h s.cfgBitwidth)
        (finishEarly h (sampleSizeError h s.cfgBitwidth)) :=
  beat_beat_header hp h true

/-! ### The item code or sequence number (R106, R107) -/

/-- What the two bytes at offset 2 write but for `PHASE`, an item code or a sequence number by the class. -/
def State.takeAux (c : Half) (s : State) : State :=
  { s with
    aux := c, seqp := s.seqp || isData s.hdr, codeOk := if isData s.hdr then s.codeOk else knownCode c }

/-- The record of the two bytes at offset 2, by the class of the header `h`. -/
def auxRecord (h c : Half) : Record := .aux (isData h) c (isData h || knownCode c)

/-- The state in which the engine has taken an item code or a sequence number and waits for the body. -/
def State.afterAux (c : Half) (s : State) : State := ((s.takeAux c).emit []).advance .body [auxRecord s.hdr c]

/-- The verdict on a frame that ends at its fourth byte or in its body, from the registers that no body byte writes
(R107, R108, R110). -/
def State.bodyVerdict (s : State) : DoneRecord := finishFull s.hdr s.aux s.seqp s.codeOk s.sse

/-- The two bytes at offset 2, in their place. -/
theorem beat_beat_aux {s : State} (hp : s.phase = .aux0) (c : Half) (last : Bool) :
    beat (highByte c) last (beat (lowByte c) false s) =
      if last then ((s.takeAux c).emit []).endFrame [auxRecord s.hdr c] (s.takeAux c).bodyVerdict
      else s.afterAux c := by
  have hlow : beat (lowByte c) false s = (s.writeAuxLow (lowByte c)).advance .aux1 [] := by
    simp [beat, beatWith_aux0 hp, beatAux0]
  rw [hlow, beat, beatWith_aux1 rfl]
  cases hd : isData s.hdr <;> cases last <;>
    simp [beatAux1, hd, auxRecord, State.afterAux, State.takeAux, State.bodyVerdict, State.advance, State.endFrame,
      State.emit, State.writePhase, State.writeAuxLow, State.writeAuxHigh, State.writeCodeOk, State.setSeqp]

theorem present_aux {s : State} (hp : s.phase = .aux0) (c : Half) {body : List Byte} (hb : body ≠ []) :
    present (le16Bytes c ++ body) s = present body (s.afterAux c) := by
  have hlast : body.isEmpty = false := by simpa using hb
  rw [present_le16Bytes, beat_beat_aux hp, hlast]
  rfl

/-- A frame that ends at its fourth byte. -/
theorem present_aux_last {s : State} (hp : s.phase = .aux0) (c : Half) :
    present (le16Bytes c) s = ((s.takeAux c).emit []).endFrame [auxRecord s.hdr c] (s.takeAux c).bodyVerdict :=
  beat_beat_aux hp c true

/-- A frame that ends at its third byte. -/
theorem present_auxByte_last {s : State} (hp : s.phase = .aux0) (d : Byte) :
    present [d] s = (s.writeAuxLow d).endFrame [] (finishEarly s.hdr s.sse) := by
  rw [present_cons, beat, beatWith_aux0 hp]
  rfl

/-! ### What the engine delivers -/

/-- From `s` to `t` the engine emitted the body bytes `body` and the verdicts `dones`, each in this order. -/
def State.Delivers (s t : State) (body : List Byte) (dones : List DoneRecord) : Prop :=
  ∃ new : List (List Record), t.outputs = s.outputs ++ new ∧ new.flatten.filterMap Record.body? = body ∧
    new.flatten.filterMap Record.done? = dones

theorem State.Delivers.trans {s t u : State} {b b' : List Byte} {v v' : List DoneRecord} (h : s.Delivers t b v)
    (h' : t.Delivers u b' v') : s.Delivers u (b ++ b') (v ++ v') := by
  obtain ⟨new, ho, rfl, rfl⟩ := h
  obtain ⟨new', ho', rfl, rfl⟩ := h'
  exact ⟨new ++ new', by rw [ho', ho, List.append_assoc], by simp, by simp⟩

/-- A body byte of a frame whose body is emitted: the byte comes out, and with a sample or not there is no verdict
(R108). -/
theorem bodyByte_records {s : State} (hs : isData s.hdr = true ∨ s.codeOk = true) (g : BitVec 3) (d : Byte) :
    (bodyByte g d s).2.filterMap Record.body? = [d] ∧ (bodyByte g d s).2.filterMap Record.done? = [] := by
  obtain ⟨_, _, e⟩ | ⟨_, _, e⟩ | ⟨_, _, e⟩ | ⟨hd, hc, _⟩ := bodyByte_cases g d s
  · cases hsmp : (deser g d s.acc s.gidx).1 <;> simp [e, hsmp, Record.body?, Record.done?]
  · simp [e, Record.body?, Record.done?]
  · simp [e, Record.body?, Record.done?]
  · simp [hd, hc] at hs

theorem beatBody_bodyVerdict (g : BitVec 3) (d : Byte) (last : Bool) (s : State) :
    (beatBody g d last s).bodyVerdict = s.bodyVerdict := by
  obtain ⟨hhdr, haux, _, hsse, hcode, hseqp⟩ := beatBody_keeps g d last s
  rw [State.bodyVerdict, hhdr, haux, hsse, hcode, hseqp, State.bodyVerdict]

theorem beatBody_delivers {s : State} (hs : isData s.hdr = true ∨ s.codeOk = true) (g : BitVec 3) (d : Byte)
    (last : Bool) : s.Delivers (beatBody g d last s) [d] (if last then [s.bodyVerdict] else []) := by
  obtain ⟨hbody, hdone⟩ := bodyByte_records hs g d
  obtain ⟨a, i, e⟩ := bodyByte_state g d s
  cases last with
  | false => exact ⟨[(bodyByte g d s).2], by simp [beatBody, e], by simpa using hbody, by simpa using hdone⟩
  | true =>
    exact ⟨[(bodyByte g d s).2 ++ [.done s.bodyVerdict]], by simp [beatBody, e, State.bodyVerdict],
      by simp [hbody, Record.body?], by simp [hdone, Record.done?]⟩

/-- A body that is emitted comes out whole, whatever samples come with it, and its last byte brings the verdict. -/
theorem present_body_delivers {body : List Byte} (hb : body ≠ []) {s : State} (hp : s.phase = .body)
    (hs : isData s.hdr = true ∨ s.codeOk = true) : s.Delivers (present body s) body [s.bodyVerdict] := by
  induction body generalizing s with
  | nil => exact absurd rfl hb
  | cons b bs ih =>
    have hbeat := beatBody_delivers hs (gbytes s.bw) b bs.isEmpty
    rw [present_cons, beat, beatWith_body hp]
    cases bs with
    | nil => exact hbeat
    | cons c cs =>
      obtain ⟨hhdr, _, _, _, hcode, _⟩ := beatBody_keeps (gbytes s.bw) b false s
      have hphase : (beatBody (gbytes s.bw) b false s).phase = .body := rfl
      have hrest := ih (by simp) hphase (by rwa [hhdr, hcode])
      rw [beatBody_bodyVerdict] at hrest
      exact hbeat.trans hrest

theorem afterHeader_delivers (s : State) (h : Half) : s.Delivers (s.afterHeader h) [] [] := by
  refine ⟨[[], headerRecords h s.cfgBitwidth], by simp [State.afterHeader, State.takeHeader], ?_, ?_⟩ <;>
    cases hbad : sampleSizeError h s.cfgBitwidth <;> simp [headerRecords, hbad, Record.body?, Record.done?]

theorem afterAux_delivers (s : State) (c : Half) : s.Delivers (s.afterAux c) [] [] :=
  ⟨[[], [auxRecord s.hdr c]], by simp [State.afterAux, State.takeAux], rfl, rfl⟩

/-- From offset 2, a frame whose body is emitted delivers its body and its one verdict. -/
theorem present_aux_delivers {s : State} (hp : s.phase = .aux0) {c : Half}
    (hs : isData s.hdr = true ∨ knownCode c = true) (body : List Byte) :
    s.Delivers (present (le16Bytes c ++ body) s) body [(s.takeAux c).bodyVerdict] := by
  cases body with
  | nil =>
    rw [List.append_nil, present_aux_last hp]
    exact ⟨[[], [auxRecord s.hdr c, .done (s.takeAux c).bodyVerdict]], by simp [State.takeAux], rfl, rfl⟩
  | cons b bs =>
    rw [present_aux hp c (by simp)]
    refine (afterAux_delivers s c).trans (present_body_delivers (by simp) rfl ?_)
    cases hd : isData s.hdr with
    | true => exact .inl hd
    | false => exact .inr (by simpa [hd, State.afterAux, State.takeAux] using hs)

/-- A frame of four bytes or more whose body is emitted, from its first byte. -/
theorem present_frame_delivers {s : State} (hp : s.phase = .hdr0) {h c : Half}
    (hs : isData h = true ∨ knownCode c = true) (body : List Byte) :
    s.Delivers (present (le16Bytes h ++ (le16Bytes c ++ body)) s) body
      [((s.afterHeader h).takeAux c).bodyVerdict] := by
  rw [present_header hp h (by simp [le16Bytes])]
  exact (afterHeader_delivers s h).trans (present_aux_delivers (by simp) (by simpa using hs) body)

/-! ### The verdict by the class (R110) -/

/-- A type is of data class exactly from 4 on (30_encoding.md R47). -/
theorem isData_pack (t : Tag) (len : Len) : isData (pack t len) = decide (4 ≤ t.toNat) := by
  rw [isData_eq_typeOf, typeOf_pack]
  revert t; decide

/-- The verdict on a control-class frame of four bytes or more. -/
def controlVerdict (h c : Half) : DoneRecord := if knownCode c then doneControl h c else doneInvalid .invalidCode

theorem bodyVerdict_takeAux_control {s : State} (hd : isData s.hdr = false) (c : Half) :
    (s.takeAux c).bodyVerdict = controlVerdict s.hdr c := by
  simp [State.bodyVerdict, State.takeAux, finishFull, controlVerdict, doneControl, hd]

theorem bodyVerdict_takeAux_data {s : State} (hd : isData s.hdr = true) (c : Half) :
    (s.takeAux c).bodyVerdict =
      { status := .ok, isData := true, type := typeOf s.hdr, length := lengthOf s.hdr, item := 0x0000, seq := c
        seqPresent := true, sse := s.sse } := by
  simp [State.bodyVerdict, State.takeAux, finishFull, hd, unpack]

/-! ### The control class -/

theorem finishEarly_control {h : Half} (hd : isData h = false) (sse : Bool) :
    finishEarly h sse = doneInvalid .invalidShort := by
  simp [finishEarly, hd]

/-- The width is not looked at in a control-class frame (R105). -/
theorem sampleSizeError_control {h : Half} (hd : isData h = false) (bw : Half) : sampleSizeError h bw = false := by
  simp [sampleSizeError, hd]

theorem headerRecords_control {h : Half} (hd : isData h = false) (bw : Half) :
    headerRecords h bw = [.hdr (typeOf h) (lengthOf h) false] := by
  simp [headerRecords, sampleSizeError_control hd, hd, unpack]

theorem afterHeader_control {h : Half} (hd : isData h = false) (s : State) :
    s.afterHeader h = { s with
      hdr := h, bw := s.cfgBitwidth, acc := 0, gidx := 0, sse := false, codeOk := false, seqp := false
      phase := .aux0, outputs := s.outputs ++ [[], [.hdr (typeOf h) (lengthOf h) false]] } := by
  simp [State.afterHeader, State.takeHeader, State.advance, State.emit, State.writePhase, headerRecords_control hd,
    sampleSizeError_control hd]

/-- From offset 2 of a control-class frame, whatever its code and its body (R106 to R108). -/
theorem present_controlAux {s : State} (hp : s.phase = .aux0) (hd : isData s.hdr = false) (c : Half)
    (body : List Byte) :
    present (le16Bytes c ++ body) s = { s with
      aux := c, codeOk := knownCode c, phase := .hdr0
      outputs := s.outputs ++ closeWith (controlVerdict s.hdr c)
        ([[], [.aux false c (knownCode c)]] ++ body.map fun d => if knownCode c then [.body d] else []) } := by
  rw [← bodyVerdict_takeAux_control hd]
  cases body with
  | nil =>
    rw [List.append_nil, present_aux_last hp]
    simp [State.takeAux, State.endFrame, State.emit, State.writePhase, auxRecord, hd, closeWith]
  | cons b bs =>
    rw [present_aux hp c (by simp), present_controlBody (b :: bs) (by simp) (s.afterAux c) rfl hd]
    simp [State.afterAux, State.takeAux, State.advance, State.emit, State.writePhase, State.bodyVerdict, auxRecord, hd,
      closeWith]

/-! ### The message rows (R72 to R75) -/

theorem exec_messageRow (m : MessageType) (len : Len) (payload : List Byte) (s : State) :
    exec (m.row len payload) s = .next (present (messageBytes m len payload) s) :=
  exec_of_decode_frame (decode_frame_eq_ok_iff.2 ⟨m, len, payload, rfl, rfl⟩) s

/-- The rows of the four control messages are those of types of control class. -/
theorem controlMessage_cases {len : Len} {payload : List Byte} {i : Instr} {t : Tag}
    (h : (i, t) ∈ [(.setControlItem len payload, 0), (.currentControlItem len payload, 1),
      (.controlItemRange len payload, 2), (.ack len payload, 3)]) :
    ∃ m : MessageType, i = m.row len payload ∧ t = m.tag ∧ isData (pack m.tag len) = false := by
  simp only [List.mem_cons, Prod.mk.injEq, List.not_mem_nil, or_false] at h
  obtain ⟨rfl, rfl⟩ | ⟨rfl, rfl⟩ | ⟨rfl, rfl⟩ | ⟨rfl, rfl⟩ := h
  exacts [⟨.setControlItem, rfl, rfl, isData_pack 0 len⟩, ⟨.currentControlItem, rfl, rfl, isData_pack 1 len⟩,
    ⟨.controlItemRange, rfl, rfl, isData_pack 2 len⟩, ⟨.ack, rfl, rfl, isData_pack 3 len⟩]

/-! ### The obligations -/

/-- Settles O18: what was built parses, and the engine takes the same bytes as a frame whose body is emitted; the
class of the type decides what the verdict makes of the code. -/
theorem controlItemRoundTrip : Obligations.ControlItemRoundTrip := by
  intro t c ps hc hlen
  refine ⟨_, buildControl_of_length_le hlen t c, ?_, fun s hp => ?_⟩
  · rw [parseControl_le16Bytes, if_pos hc, typeOf_controlHeader]
  · have htotal : (le16Bytes (controlHeader t ps.length) ++ (le16Bytes c ++ ps)).length = 4 + ps.length := by
      simp [le16Bytes]
      omega
    have hclass : isData (controlHeader t ps.length) = decide (4 ≤ t.toNat) := isData_pack t _
    obtain ⟨new, hout, hbody, hdone⟩ := present_frame_delivers hp (h := controlHeader t ps.length) (.inr hc) ps
    refine ⟨_, new, runInstrs_framed _ s, hout, hbody, fun ht => ?_, fun ht => ?_⟩
    · rw [hdone, bodyVerdict_takeAux_control (by simpa [hclass] using ht), htotal]
      simp [controlVerdict, hc, doneControl, unpack]
    · rw [hdone, bodyVerdict_takeAux_data (by simpa [hclass] using ht), htotal]
      simp [sampleSizeError, hclass, ht]

/-- Settles O40: a header alone and a header with one more byte are too short; with two bytes or more after it the
code at offset 2 decides. -/
theorem controlMessagesComplete : Obligations.ControlMessagesComplete := by
  intro len payload s hp i t hi
  obtain ⟨m, rfl, rfl, hd⟩ := controlMessage_cases hi
  rw [exec_messageRow, messageBytes]
  match payload with
  | [] =>
    rw [List.append_nil, present_header_last hp, headerRecords_control hd, finishEarly_control hd]
    simp [State.takeHeader, sampleSizeError_control hd, State.endFrame, State.emit, State.writePhase, doneInvalid,
      closeWith]
  | [x] =>
    rw [present_header hp _ (by simp), present_auxByte_last rfl, afterHeader_control hd, finishEarly_control hd]
    simp [State.writeAuxLow, State.endFrame, State.emit, State.writePhase, doneInvalid, closeWith]
  | x :: y :: body =>
    have hcode := present_controlAux (s := s.afterHeader (pack m.tag len)) rfl hd (le16 x y) body
    rw [le16Bytes_le16_append] at hcode
    rw [present_header hp _ (by simp), hcode, afterHeader_control hd]
    simp [closeWith, controlVerdict, doneControl, doneInvalid, unpack]

end Sys2Proof.Machine
end

section
/-! Data-item frames (42_data_item.md): `PARSE_DATA` by length, `BUILD_DATA` by its truncated total, and what
the one makes of what the other built. -/

namespace Sys2Proof.Machine

/-! ### `PARSE_DATA` (R80) -/

theorem parseData_of_length_lt {b : List Byte} (h : b.length < 2) : parseData b = .error (.invalidFrame .tooShort) := by
  match b, h with
  | [], _ => rfl
  | [_], _ => rfl

/-- With fewer than two bytes after the header there is no sequence number, and a third byte is discarded. -/
theorem parseData_header {rest : List Byte} (hr : rest.length < 2) (h : Half) :
    parseData (le16Bytes h ++ rest) = .ok { type := typeOf h, seq := 0x0000, seqPresent := false, body := [] } := by
  match rest, hr with
  | [], _ => simp [le16Bytes, parseData, unpack]
  | [_], _ => simp [le16Bytes, parseData, unpack]

/-- With its four fixed bytes there, a frame parses whatever the sequence number. -/
theorem parseData_le16Bytes (h c : Half) (body : List Byte) :
    parseData (le16Bytes h ++ (le16Bytes c ++ body)) =
      .ok { type := typeOf h, seq := c, seqPresent := true, body := body } := by
  simp [le16Bytes, parseData, unpack]

/-! ### `BUILD_DATA` (R85) -/

/-- The header that `BUILD_DATA` writes over `n` parameter bytes. -/
def dataHeader (t : Tag) (n : Nat) : Half := pack t (BitVec.ofNat 13 (2 + n))

theorem buildData_eq (t : Tag) (ps : List Byte) : buildData t ps = le16Bytes (dataHeader t ps.length) ++ ps := rfl

@[simp] theorem typeOf_dataHeader (t : Tag) (n : Nat) : typeOf (dataHeader t n) = t := typeOf_pack t _

/-- The length field is the total modulo 8192, since it has 13 bits. -/
theorem toNat_lengthOf_dataHeader (t : Tag) (n : Nat) : (lengthOf (dataHeader t n)).toNat = (2 + n) % 8192 := by
  rw [dataHeader, lengthOf_pack, BitVec.toNat_ofNat]

/-! ### The obligations -/

/-- Settles O19: no header, a header without a whole sequence number, and all four fixed bytes. -/
theorem parseDataByLength : Obligations.ParseDataByLength := by
  refine fun b => ⟨parseData_of_length_lt, ?_, ?_⟩
  · rintro b0 b1 rest rfl hr
    have hparse := parseData_header hr (le16 b0 b1)
    rw [le16Bytes_le16_append] at hparse
    exact ⟨_, hparse, toNat_typeOf_le16 b0 b1, rfl, rfl, rfl⟩
  · rintro b0 b1 b2 b3 body rfl
    have hparse := parseData_le16Bytes (le16 b0 b1) (le16 b2 b3) body
    rw [le16Bytes_le16_append, le16Bytes_le16_append] at hparse
    exact ⟨_, hparse, toNat_typeOf_le16 b0 b1, toNat_le16 b2 b3, rfl, rfl⟩

/-- Settles O20: the two header bytes hold the header whole, and its two fields are the type and the truncated
total. -/
theorem buildDataLayoutAndTruncation : Obligations.BuildDataLayoutAndTruncation := by
  refine fun t ps => ⟨_, _, buildData_eq t ps, ?_, ?_⟩
  · rw [le16_lowByte_highByte]
    exact typeOf_dataHeader t ps.length
  · rw [le16_lowByte_highByte]
    exact toNat_lengthOf_dataHeader t ps.length

/-- Settles O21: the parameters built in are the bytes after the header, so their first two, if both are there, are
parsed as the sequence number. -/
theorem dataItemParseOfBuild : Obligations.DataItemParseOfBuild := by
  refine fun t => ⟨?_, fun p => ?_, fun p q ps => ?_⟩
  · rw [buildData_eq, parseData_header (by simp), typeOf_dataHeader]
  · rw [buildData_eq, parseData_header (by simp), typeOf_dataHeader]
  · rw [buildData_eq, ← le16Bytes_le16_append p q ps, parseData_le16Bytes, typeOf_dataHeader]

end Sys2Proof.Machine
end

section
/-! A data frame in the engine (44_frame_engine.md R105 to R109): its header, its body under a legal and an illegal
width, and the four data messages whole. -/

namespace Sys2Proof.Machine

/-! ### The body against the sample extractor (43_sample_extractor.md R90, R91, R96) -/

theorem extract_of_bwOk {w : Half} (hw : bwOk w = true) (body : List Byte) :
    extract w body = .ok ((List.range (body.length / (w.toNat / 8))).map (sampleAt (w.toNat / 8) body)) := if_pos hw

/-- The bytes that the group registers hold after `body`: those after its last complete group. Under an illegal width
no group is begun. -/
def leftover (w : Half) (body : List Byte) : List Byte :=
  if bwOk w then body.drop (w.toNat / 8 * (body.length / (w.toNat / 8))) else []

@[simp] theorem leftover_nil (w : Half) : leftover w [] = [] := by simp [leftover]

theorem leftover_of_illegal {w : Half} (hw : bwOk w = false) (body : List Byte) : leftover w body = [] := by
  simp [leftover, hw]

theorem leftover_of_bwOk {w : Half} (hw : bwOk w = true) (body : List Byte) :
    leftover w body = body.drop (w.toNat / 8 * (body.length / (w.toNat / 8))) := if_pos hw

theorem length_leftover_of_bwOk {w : Half} (hw : bwOk w = true) (body : List Byte) :
    (leftover w body).length = body.length % (w.toNat / 8) := by
  rw [leftover_of_bwOk hw, List.length_drop, Nat.mod_eq_sub]

/-- The records of each body byte but for `Done`: the byte, and under a legal width the sample whose group ends
there. -/
def bodyRecords (w : Half) (body : List Byte) : List (List Record) :=
  (List.range body.length).map fun j =>
    .body (body.getD j 0) :: if bwOk w then samplesAtByte (w.toNat / 8) body j else []

theorem bodyRecords_ne_nil {body : List Byte} (hb : body ≠ []) (w : Half) : bodyRecords w body ≠ [] := by
  simpa [bodyRecords] using hb

theorem bodyRecords_of_illegal {w : Half} (hw : bwOk w = false) (body : List Byte) :
    bodyRecords w body = body.map fun d => [.body d] := by
  refine List.ext_getElem (by simp [bodyRecords]) fun j hj _ => ?_
  have hlt : j < body.length := by simpa [bodyRecords] using hj
  simp [bodyRecords, hw, hlt]

/-- A sample comes out at the last byte of its group, as the one whose number is that of the byte's group. -/
theorem samplesAtByte_eq_sampleAt (g : Nat) (body : List Byte) (j : Nat) :
    samplesAtByte g body j = if (j + 1) % g = 0 then [.smp (sampleAt g body (j / g))] else [] := by
  rw [samplesAtByte]
  split_ifs with hend
  · have hdvd : g ∣ j + 1 := Nat.dvd_of_mod_eq_zero hend
    have hstart : j + 1 - g = j / g * g := by
      rw [← Nat.div_mul_cancel hdvd, Nat.succ_div_of_dvd hdvd, Nat.succ_mul, Nat.add_sub_cancel]
    rw [hstart, sampleAt]
  · rfl

/-- Under a legal width the samples that a body brings are those of `EXTRACT`, each at its group's last byte. -/
theorem bodyRecords_of_bwOk {w : Half} (hw : bwOk w = true) (body : List Byte) {samples : List Sample}
    (h : extract w body = .ok samples) :
    bodyRecords w body = (List.range body.length).map fun j => .body (body.getD j 0) ::
      if (j + 1) % (w.toNat / 8) = 0 then [.smp (samples.getD (j / (w.toNat / 8)) 0)] else [] := by
  rw [extract_of_bwOk hw, Except.ok.injEq] at h
  subst h
  refine List.map_congr_left fun j hj => ?_
  rw [if_pos hw, samplesAtByte_eq_sampleAt]
  split_ifs with hend
  · have hdvd : w.toNat / 8 ∣ j + 1 := Nat.dvd_of_mod_eq_zero hend
    have hlt : j / (w.toNat / 8) < body.length / (w.toNat / 8) := by
      rw [Nat.lt_iff_add_one_le, ← Nat.succ_div_of_dvd hdvd]
      exact Nat.div_le_div_right (List.mem_range.1 hj)
    simp [hlt]
  · rfl

/-! ### The body of a data frame in the engine (R108, R109) -/

/-- The body of a data frame whose group is still empty, whatever its width: under a legal one the bytes and the
samples, under an illegal one the bytes alone. -/
theorem present_dataBody {body : List Byte} (hb : body ≠ []) {s : State} (hp : s.phase = .body)
    (hd : isData s.hdr = true) (hsse : s.sse = !bwOk s.bw) (hacc : s.acc = 0) (hgidx : s.gidx = 0) :
    present body s = { s with
      acc := BitVec.ofNat 32 (le (leftover s.bw body)), gidx := BitVec.ofNat 2 (leftover s.bw body).length
      phase := .hdr0, outputs := s.outputs ++ closeWith s.bodyVerdict (bodyRecords s.bw body) } := by
  cases hw : bwOk s.bw with
  | false =>
    rw [present_sseBody body hb s hp hd (by simp [hsse, hw]), bodyRecords_of_illegal hw, leftover_of_illegal hw]
    simp [le, hacc, hgidx, State.bodyVerdict]
  | true =>
    obtain ⟨hpos, hle, hg⟩ := gbytes_of_bwOk hw
    rw [← presentWith_gbytes hp, presentWith_dataBody (gbytes s.bw) ⟨hpos, hle⟩ [] [] body hb s hp hd
      (by simp [hsse, hw]) rfl hpos hgidx hacc, length_leftover_of_bwOk hw, leftover_of_bwOk hw, ← hg]
    simp [bodyRecords, hw, hg, State.bodyVerdict]

/-! ### The fixed bytes of a data frame -/

theorem sampleSizeError_data {h : Half} (hd : isData h = true) (bw : Half) : sampleSizeError h bw = !bwOk bw := by
  simp [sampleSizeError, hd]

theorem finishEarly_data {h : Half} (hd : isData h = true) (sse : Bool) :
    finishEarly h sse =
      { status := .ok, isData := true, type := typeOf h, length := lengthOf h, item := 0x0000, seq := 0x0000
        seqPresent := false, sse := sse } := by
  simp [finishEarly, finishFull, hd, unpack]

theorem headerRecords_data {h : Half} (hd : isData h = true) (bw : Half) :
    headerRecords h bw = .hdr (typeOf h) (lengthOf h) true :: if !bwOk bw then [.sse] else [] := by
  rw [headerRecords, sampleSizeError_data hd, hd, unpack]

theorem afterHeader_data {h : Half} (hd : isData h = true) (s : State) :
    s.afterHeader h = { s with
      hdr := h, bw := s.cfgBitwidth, acc := 0, gidx := 0, sse := !bwOk s.cfgBitwidth, codeOk := false, seqp := false
      phase := .aux0, outputs := s.outputs ++ [[], headerRecords h s.cfgBitwidth] } := by
  simp [State.afterHeader, State.takeHeader, State.advance, State.emit, State.writePhase, sampleSizeError_data hd]

/-- From offset 2 of a data-class frame: the sequence number and a body, or no body. -/
theorem present_dataAux {s : State} (hp : s.phase = .aux0) (hd : isData s.hdr = true) (hsse : s.sse = !bwOk s.bw)
    (hacc : s.acc = 0) (hgidx : s.gidx = 0) (c : Half) (body : List Byte) :
    present (le16Bytes c ++ body) s = { s with
      aux := c, seqp := true, phase := .hdr0
      acc := BitVec.ofNat 32 (le (leftover s.bw body)), gidx := BitVec.ofNat 2 (leftover s.bw body).length
      outputs := s.outputs ++ closeWith (s.takeAux c).bodyVerdict
        ([[], [.aux true c true]] ++ bodyRecords s.bw body) } := by
  cases body with
  | nil =>
    rw [List.append_nil, present_aux_last hp]
    simp [State.takeAux, State.endFrame, State.emit, State.writePhase, auxRecord, hd, closeWith, bodyRecords, le, hacc,
      hgidx]
  | cons b bs =>
    rw [present_aux hp c (by simp), present_dataBody (s := s.afterAux c) (by simp) rfl hd hsse hacc hgidx]
    simp [State.afterAux, State.takeAux, State.advance, State.emit, State.writePhase, State.bodyVerdict, auxRecord, hd,
      closeWith, closeWith_cons _ _ _ (bodyRecords_ne_nil (List.cons_ne_nil b bs) s.bw)]

/-- A frame of data class of four bytes or more, from its first byte. -/
theorem present_dataFrame {s : State} (hp : s.phase = .hdr0) {h : Half} (hd : isData h = true) (c : Half)
    (body : List Byte) :
    present (le16Bytes h ++ (le16Bytes c ++ body)) s = { s with
      hdr := h, bw := s.cfgBitwidth, sse := !bwOk s.cfgBitwidth, codeOk := false, seqp := true, aux := c
      phase := .hdr0
      acc := BitVec.ofNat 32 (le (leftover s.cfgBitwidth body))
      gidx := BitVec.ofNat 2 (leftover s.cfgBitwidth body).length
      outputs := s.outputs ++ closeWith
        { status := .ok, isData := true, type := typeOf h, length := lengthOf h, item := 0x0000, seq := c
          seqPresent := true, sse := !bwOk s.cfgBitwidth }
        ([[], headerRecords h s.cfgBitwidth, [], [.aux true c true]] ++ bodyRecords s.cfgBitwidth body) } := by
  have hsse : (s.afterHeader h).sse = !bwOk (s.afterHeader h).bw := sampleSizeError_data hd s.cfgBitwidth
  rw [present_header hp h (by simp [le16Bytes]), present_dataAux (s := s.afterHeader h) rfl hd hsse rfl rfl,
    bodyVerdict_takeAux_data (s := s.afterHeader h) hd, afterHeader_data hd]
  simp [closeWith]

/-! ### The message rows (42_data_item.md R81 to R84) -/

/-- The rows of the four data messages are those of types of data class. -/
theorem dataMessage_cases {len : Len} {payload : List Byte} {i : Instr} {t : Tag}
    (h : (i, t) ∈ [(.dataItem0 len payload, 4), (.dataItem1 len payload, 5),
      (.dataItem2 len payload, 6), (.dataItem3 len payload, 7)]) :
    ∃ m : MessageType, i = m.row len payload ∧ t = m.tag ∧ isData (pack m.tag len) = true := by
  simp only [List.mem_cons, Prod.mk.injEq, List.not_mem_nil, or_false] at h
  obtain ⟨rfl, rfl⟩ | ⟨rfl, rfl⟩ | ⟨rfl, rfl⟩ | ⟨rfl, rfl⟩ := h
  exacts [⟨.dataItem0, rfl, rfl, isData_pack 4 len⟩, ⟨.dataItem1, rfl, rfl, isData_pack 5 len⟩,
    ⟨.dataItem2, rfl, rfl, isData_pack 6 len⟩, ⟨.dataItem3, rfl, rfl, isData_pack 7 len⟩]

/-! ### The obligation -/

/-- Settles O41: a header alone and a header with one more byte are valid without a sequence number; with two bytes or
more after it they begin with the sequence number and the rest is the body. -/
theorem dataMessagesComplete : Obligations.DataMessagesComplete := by
  intro len payload s hp i t hi
  obtain ⟨m, rfl, rfl, hd⟩ := dataMessage_cases hi
  rw [exec_messageRow, messageBytes]
  match payload with
  | [] =>
    rw [List.append_nil, present_header_last hp, headerRecords_data hd, finishEarly_data hd]
    simp [State.takeHeader, sampleSizeError_data hd, State.endFrame, State.emit, State.writePhase, closeWith, le]
  | [x] =>
    rw [present_header hp _ (by simp), present_auxByte_last rfl, afterHeader_data hd, finishEarly_data hd,
      headerRecords_data hd]
    simp [State.writeAuxLow, State.endFrame, State.emit, State.writePhase, closeWith, le]
  | x :: y :: body =>
    have hframe := present_dataFrame hp hd (le16 x y) body
    rw [le16Bytes_le16_append] at hframe
    rw [hframe, headerRecords_data hd, typeOf_pack, lengthOf_pack]
    cases hw : bwOk s.cfgBitwidth with
    | false =>
      simp [leftover_of_illegal hw, bodyRecords, hw, le]
    | true =>
      have hextract := extract_of_bwOk hw body
      rw [bodyRecords_of_bwOk hw body hextract, length_leftover_of_bwOk hw, leftover_of_bwOk hw]
      simp [hextract]

end Sys2Proof.Machine
end

section
/-! The sample extractor in the function layer (43_sample_extractor.md): which widths it takes, how many samples it
gives, each sample from the bytes of its group, and that the trailing bytes reach none. -/

namespace Sys2Proof.Machine

/-! ### The width (R91) -/

/-- The width alone decides whether there are samples. -/
theorem extract_eq_error_iff (w : Half) (body : List Byte) :
    extract w body = .error .sampleSizeOutOfRange ↔ ¬ bwOk w = true := by
  by_cases hw : bwOk w = true
  · simp [extract_of_bwOk hw, hw]
  · simp [extract, hw]

/-! ### Complete groups and the bytes after them (R90, R96) -/

/-- What follows a complete group does not reach its sample. -/
theorem sampleAt_append {g i : Nat} {body : List Byte} (hi : i < body.length / g) (tail : List Byte) :
    sampleAt g (body ++ tail) i = sampleAt g body i := by
  have hend : (i + 1) * g ≤ body.length := Nat.mul_le_of_le_div _ _ _ hi
  rw [Nat.succ_mul] at hend
  rw [sampleAt, sampleAt, List.drop_append_of_le_length (by omega),
    List.take_append_of_le_length (by rw [List.length_drop]; omega)]

/-- Fewer bytes than a group, after whole groups, make no further group. -/
theorem length_append_div {g : Nat} {body tail : List Byte} (hbody : body.length % g = 0) (htail : tail.length < g) :
    (body ++ tail).length / g = body.length / g := by
  rw [List.length_append, Nat.add_div_of_dvd_right (Nat.dvd_of_mod_eq_zero hbody), Nat.div_eq_of_lt htail,
    Nat.add_zero]

/-! ### A sample from the bytes of its group (R92 to R95) -/

/-- The `g` bytes of group `i`, read one by one at their offsets in the body. -/
def groupBytes (g : Nat) (body : List Byte) (i : Nat) : List Byte :=
  (List.range g).map fun k => body.getD (g * i + k) 0

/-- The bytes of a complete group are the stretch of the body that its sample is made of. -/
theorem take_drop_eq_groupBytes {g i : Nat} {body : List Byte} (hi : i < body.length / g) :
    (body.drop (i * g)).take g = groupBytes g body i := by
  have hend : (i + 1) * g ≤ body.length := Nat.mul_le_of_le_div _ _ _ hi
  rw [Nat.succ_mul] at hend
  refine List.ext_getElem (by simp [groupBytes]; omega) fun k _ hk => ?_
  have hkg : k < g := by simpa [groupBytes] using hk
  have hlt : g * i + k < body.length := by rw [Nat.mul_comm]; omega
  simp [groupBytes, hlt, Nat.mul_comm i g]

/-- At a legal width of `g` bytes: one sample for each complete group, assembled from the group's bytes. -/
theorem extract_groups {w : Half} (hw : bwOk w = true) {g : Nat} (hg : w.toNat / 8 = g) (body : List Byte) :
    ∃ l, extract w body = .ok l ∧ l.length = body.length / g ∧
      ∀ i, i < l.length → l[i]? = some (BitVec.ofNat 32 (le (groupBytes g body i))) := by
  refine ⟨_, extract_of_bwOk hw body, by simp [hg], fun i hi => ?_⟩
  have hi' : i < body.length / g := by simpa [hg] using hi
  simp [hg, hi', sampleAt, take_drop_eq_groupBytes hi']

theorem ofNat_le_two (b0 b1 : Byte) :
    BitVec.ofNat 32 (le [b0, b1]) = b0.setWidth 32 ||| b1.setWidth 32 <<< 8 := by
  calc BitVec.ofNat 32 (le ([b0] ++ [b1]))
      = BitVec.ofNat 32 (le [b0]) ||| BitVec.ofNat 32 (le [b1]) <<< 8 := ofNat_le_append [b0] [b1]
    _ = _ := by simp only [ofNat_le_singleton]

theorem ofNat_le_four (b0 b1 b2 b3 : Byte) :
    BitVec.ofNat 32 (le [b0, b1, b2, b3]) =
      b0.setWidth 32 ||| b1.setWidth 32 <<< 8 ||| b2.setWidth 32 <<< 16 ||| b3.setWidth 32 <<< 24 := by
  calc BitVec.ofNat 32 (le ([b0, b1, b2] ++ [b3]))
      = BitVec.ofNat 32 (le [b0, b1, b2]) ||| BitVec.ofNat 32 (le [b3]) <<< 24 := ofNat_le_append [b0, b1, b2] [b3]
    _ = _ := by rw [ofNat_le_three, ofNat_le_singleton]

/-! ### The obligations -/

/-- Settles O22: each sample is its group's one to four bytes, assembled little-endian. -/
theorem extractByWidth : Obligations.ExtractByWidth := by
  refine fun body => ⟨?_, ?_, ?_, ?_⟩
  · obtain ⟨l, hl, hlen, hget⟩ := extract_groups (w := 8) rfl (g := 1) rfl body
    refine ⟨l, hl, by rw [hlen, Nat.div_one], fun i hi => ?_⟩
    rw [hget i hi, ← ofNat_le_singleton]
    simp [groupBytes]
  · obtain ⟨l, hl, hlen, hget⟩ := extract_groups (w := 16) rfl (g := 2) rfl body
    exact ⟨l, hl, hlen, fun i hi => by rw [hget i hi, ← ofNat_le_two]; rfl⟩
  · obtain ⟨l, hl, hlen, hget⟩ := extract_groups (w := 24) rfl (g := 3) rfl body
    exact ⟨l, hl, hlen, fun i hi => by rw [hget i hi, ← ofNat_le_three]; rfl⟩
  · obtain ⟨l, hl, hlen, hget⟩ := extract_groups (w := 32) rfl (g := 4) rfl body
    exact ⟨l, hl, hlen, fun i hi => by rw [hget i hi, ← ofNat_le_four]; rfl⟩

/-- Settles O23. -/
theorem extractRejectsIllegalWidths : Obligations.ExtractRejectsIllegalWidths := by
  intro w body
  rw [extract_eq_error_iff, bwOk_iff_toNat]
  simp

/-- Settles O24: the tail adds no group and reaches no sample of the others. -/
theorem trailingBytesChangeNoSample : Obligations.TrailingBytesChangeNoSample := by
  intro w body tail hw hbody htail
  rw [extract_of_bwOk hw, extract_of_bwOk hw, length_append_div hbody htail]
  congr 1
  exact List.map_congr_left fun i hi => sampleAt_append (List.mem_range.1 hi) tail

end Sys2Proof.Machine
end

section
/-! The four rows of the widths in the engine (43_sample_extractor.md R92 to R96, 44_frame_engine.md R108, R109). -/

namespace Sys2Proof.Machine

/-- A width's row cuts the body into groups of its own size. -/
theorem exec_widthRow (k : Width) (body : List Byte) (s : State) :
    exec (k.row body) s = .next (presentWith (gbytes k.value) body s) :=
  exec_of_decodeWidth (decodeWidth_eq_ok_iff.2 ⟨k, rfl, rfl⟩) s

/-- The rows of the four widths, each with its group size. -/
theorem width_cases {body : List Byte} {i : Instr} {g : Nat}
    (h : (i, g) ∈ [(.width8 body, 1), (.width16 body, 2), (.width24 body, 3), (.width32 body, 4)]) :
    ∃ k : Width, i = k.row body ∧ g = (gbytes k.value).toNat := by
  simp only [List.mem_cons, Prod.mk.injEq, List.not_mem_nil, or_false] at h
  obtain ⟨rfl, rfl⟩ | ⟨rfl, rfl⟩ | ⟨rfl, rfl⟩ | ⟨rfl, rfl⟩ := h
  exacts [⟨.w8, rfl, rfl⟩, ⟨.w16, rfl, rfl⟩, ⟨.w24, rfl, rfl⟩, ⟨.w32, rfl, rfl⟩]

/-- The verdict on a data frame: its class is enough (R110). -/
theorem finishFull_data {h : Half} (hd : isData h = true) (a : Half) (seqp codeOk sse : Bool) :
    finishFull h a seqp codeOk sse =
      { status := .ok, isData := true, type := (unpack h).1, length := (unpack h).2, item := 0x0000
        seq := if seqp then a else 0x0000, seqPresent := seqp, sse := sse } :=
  if_pos hd

/-- Settles O43: a row is its body's beats with its own group size, and no whole group stands before the bytes
`pre`. -/
theorem widthsComplete : Obligations.WidthsComplete := by
  intro pre body s hp hd hs hb i g hi hpre hgidx hacc
  obtain ⟨k, rfl, rfl⟩ := width_cases hi
  obtain ⟨hpos, hle, _⟩ := gbytes_of_bwOk ((bwOk_iff_value _).2 ⟨k, rfl⟩)
  rw [exec_widthRow, presentWith_dataBody (gbytes k.value) ⟨hpos, hle⟩ [] pre body hb s hp hd hs rfl hpre hgidx hacc,
    finishFull_data hd, hs]
  simp only [samplesAtByte, List.nil_append, List.length_nil, Nat.zero_add]

end Sys2Proof.Machine
end

section
/-! One beat, said once (44_frame_engine.md R103 to R109): the registers it writes, the records it emits and the verdict
it gives on a frame that ends with it. The five beat rules R104 to R108 are this at the five values of `PHASE`. -/

namespace Sys2Proof.Machine

/-! ### What a beat writes and emits -/

/-- The register writes of a beat but for `PHASE`. -/
def beatWrites (g : BitVec 3) (d : Byte) (s : State) : State :=
  match s.phase with
  | .hdr0 => s.startFrame d
  | .hdr1 => (s.writeHdrHigh d).raiseSse (sampleSizeError (le16 (lowByte s.hdr) d) s.bw)
  | .aux0 => s.writeAuxLow d
  | .aux1 => s.takeAux (le16 (lowByte s.aux) d)
  | .body => (bodyByte g d s).1

/-- The records of a beat but for `Done`. -/
def beatRecords (g : BitVec 3) (d : Byte) (s : State) : List Record :=
  match s.phase with
  | .hdr0 => []
  | .hdr1 => headerRecords (le16 (lowByte s.hdr) d) s.bw
  | .aux0 => []
  | .aux1 => [auxRecord s.hdr (le16 (lowByte s.aux) d)]
  | .body => (bodyByte g d s).2

/-- The verdict on a frame that ends with this beat (R110). -/
def beatVerdict (d : Byte) (s : State) : DoneRecord :=
  match s.phase with
  | .hdr0 => doneInvalid .invalidShort
  | .hdr1 =>
    finishEarly (le16 (lowByte s.hdr) d) (s.sse || sampleSizeError (le16 (lowByte s.hdr) d) s.bw)
  | .aux0 => finishEarly s.hdr s.sse
  | .aux1 => (s.takeAux (le16 (lowByte s.aux) d)).bodyVerdict
  | .body => s.bodyVerdict

/-- All the records of a beat: with `last` = 1 the verdict comes after the others (R103). -/
def beatEntry (g : BitVec 3) (d : Byte) (last : Bool) (s : State) : List Record :=
  beatRecords g d s ++ if last then [.done (beatVerdict d s)] else []

@[simp] theorem beatWrites_outputs (g : BitVec 3) (d : Byte) (s : State) : (beatWrites g d s).outputs = s.outputs := by
  obtain ⟨a, i, e⟩ := bodyByte_state g d s
  cases hp : s.phase <;> simp [beatWrites, hp, State.takeAux, e]

/-- Every beat, whatever `PHASE`: its writes, the next position, and one entry of records. -/
theorem beatWith_eq (g : BitVec 3) (d : Byte) (last : Bool) (s : State) :
    beatWith g d last s = { beatWrites g d s with
      phase := if last then .hdr0 else s.phase.next
      outputs := s.outputs ++ [beatEntry g d last s] } := by
  have hrule : beatWith g d last s =
      if last then (beatWrites g d s).endFrame (beatRecords g d s) (beatVerdict d s)
      else (beatWrites g d s).advance s.phase.next (beatRecords g d s) := by
    cases hp : s.phase with
    | hdr0 => simp [beatWith_hdr0 hp, beatHdr0, beatWrites, beatRecords, beatVerdict, hp, Phase.next]
    | hdr1 => simp [beatWith_hdr1 hp, beatHdr1, beatWrites, beatRecords, beatVerdict, hp, Phase.next, headerRecords]
    | aux0 => simp [beatWith_aux0 hp, beatAux0, beatWrites, beatRecords, beatVerdict, hp, Phase.next]
    | aux1 =>
      cases hd : isData s.hdr <;>
        simp [beatWith_aux1 hp, beatAux1, beatWrites, beatRecords, beatVerdict, hp, hd, Phase.next, auxRecord,
          State.takeAux, State.bodyVerdict, State.setSeqp, State.writeCodeOk, State.writeAuxHigh]
    | body =>
      simp [beatWith_body hp, beatBody, beatWrites, beatRecords, beatVerdict, hp, Phase.next, State.bodyVerdict]
  rw [hrule]
  cases last <;> simp [beatEntry, State.advance, State.endFrame, State.emit, State.writePhase]

theorem beatWith_outputs_eq (g : BitVec 3) (d : Byte) (last : Bool) (s : State) :
    (beatWith g d last s).outputs = s.outputs ++ [beatEntry g d last s] := by rw [beatWith_eq]

theorem beat_eq (d : Byte) (last : Bool) (s : State) :
    beat d last s = { beatWrites (gbytes s.bw) d s with
      phase := if last then .hdr0 else s.phase.next
      outputs := s.outputs ++ [beatEntry (gbytes s.bw) d last s] } := beatWith_eq _ d last s

theorem beat_outputs_eq (d : Byte) (last : Bool) (s : State) :
    (beat d last s).outputs = s.outputs ++ [beatEntry (gbytes s.bw) d last s] := beatWith_outputs_eq _ d last s

/-! ### The body byte of each class (R108, R109) -/

/-- A body byte of a data frame: under a legal width it joins the group or completes it. -/
theorem bodyByte_data {s : State} (hd : isData s.hdr = true) (g : BitVec 3) (d : Byte) :
    bodyByte g d s =
      if s.sse then (s, [.body d])
      else if s.gidx.toNat + 1 = g.toNat then
        (s.writeGroup 0 0, [.body d, .smp (s.acc ||| (d.setWidth 32 <<< (8 * s.gidx.toNat)))])
      else (s.writeGroup (s.acc ||| (d.setWidth 32 <<< (8 * s.gidx.toNat))) (s.gidx + 1), [.body d]) := by
  obtain ⟨hfull, e⟩ | ⟨hnot, e⟩ := deser_cases g d s.acc s.gidx
  · rw [if_pos ((gidx_succ_eq_iff _ _).1 hfull)]
    simp [bodyByte, hd, e]
  · rw [if_neg (mt (gidx_succ_eq_iff _ _).2 hnot)]
    simp [bodyByte, hd, e]

/-- A body byte of a control frame comes out exactly when the code is known. -/
theorem bodyByte_control {s : State} (hd : isData s.hdr = false) (g : BitVec 3) (d : Byte) :
    bodyByte g d s = (s, if s.codeOk then [.body d] else []) := by
  cases hc : s.codeOk <;> simp [bodyByte, hd, hc]

/-- The membership of the six item codes as a test (30_encoding.md R49). -/
theorem knownCode_eq_decide (c : Half) :
    knownCode c = decide (c.toNat ∈ [0x0000, 0x0018, 0x0020, 0x0044, 0x008A, 0x00B8]) := by
  rw [Bool.eq_iff_iff, decide_eq_true_iff, knownCode_iff_toNat]

/-! ### The obligations -/

/-- Settles O28: the write and an empty entry are all that the event does. -/
theorem cfgWriteStoresAnyValue : Obligations.CfgWriteStoresAnyValue := exec_cfgWrite

/-- Settles O29: an empty entry is all that the event adds. -/
theorem idleChangesNothing : Obligations.IdleChangesNothing := exec_idle

/-- Settles O30: the write comes after the beat, and the beat leaves `CFG_BITWIDTH` alone. -/
theorem beatCfgIsBeatWithTheWrite : Obligations.BeatCfgIsBeatWithTheWrite := fun d last v s =>
  ⟨_, _, exec_beat d last s, exec_beatCfg d last v s, beat_cfgBitwidth d last s, beat_outputs_eq d last s⟩

/-- Settles O33: the first beat's writes, and the verdict on a one-byte frame. -/
theorem beatAtPhase0 : Obligations.BeatAtPhase0 := by
  intro d last s hp
  rw [exec_beat, beat_eq]
  simp [beatWrites, beatEntry, beatRecords, beatVerdict, hp, Phase.next, State.startFrame, doneInvalid]

/-- Settles O34: the class in the type field is the class bit, and the width is illegal when it is none of the four. -/
theorem beatAtPhase1 : Obligations.BeatAtPhase1 := by
  intro d last s hp h data bad
  have hhdr : le16 (lowByte s.hdr) d = h := rfl
  have hdata : isData h = data := isData_eq_typeOf h
  have hbad : sampleSizeError h s.bw = bad := by rw [sampleSizeError, hdata]; rfl
  rw [exec_beat, beat_eq]
  simp only [beatWrites, beatEntry, beatRecords, beatVerdict, hp, hhdr, headerRecords, hbad, hdata, finishEarly,
    finishFull, Phase.next]
  cases data <;> simp [State.writeHdrHigh, State.raiseSse, doneInvalid, hhdr]

/-- Settles O35: the class decides the verdict on a three-byte frame. -/
theorem beatAtPhase2 : Obligations.BeatAtPhase2 := by
  intro d last s hp
  rw [exec_beat, beat_eq]
  cases hd : isData s.hdr <;>
    simp [beatWrites, beatEntry, beatRecords, beatVerdict, hp, hd, Phase.next, State.writeAuxLow, finishEarly,
      finishFull, doneInvalid]

/-- Settles O36: the class decides which flag is written and what the record shows. -/
theorem beatAtPhase3 : Obligations.BeatAtPhase3 := by
  intro d last s hp a known
  have haux : le16 (lowByte s.aux) d = a := rfl
  have hknown : knownCode a = known := knownCode_eq_decide a
  rw [exec_beat, beat_eq]
  simp only [beatWrites, beatEntry, beatRecords, beatVerdict, hp, haux, auxRecord, hknown, Phase.next]
  cases hd : isData s.hdr with
  | true =>
    rw [bodyVerdict_takeAux_data hd]
    simp [State.takeAux, hd, unpack]
  | false =>
    rw [bodyVerdict_takeAux_control hd]
    simp [State.takeAux, hd, unpack, controlVerdict, doneControl, doneInvalid, hknown]

/-- Settles O37: `SSE` decides whether the byte goes to the group, and the group's size whether it completes it. -/
theorem beatAtPhase4OfADataFrame : Obligations.BeatAtPhase4OfADataFrame := by
  intro d last s hp hd a full
  rw [exec_beat, beat_eq]
  simp only [beatWrites, beatEntry, beatRecords, beatVerdict, hp, bodyByte_data hd, State.bodyVerdict,
    finishFull_data hd]
  by_cases hfull : s.gidx.toNat + 1 = (gbytes s.bw).toNat <;> cases hs : s.sse <;>
    simp [hs, hfull, a, full, Phase.next, State.writeGroup]

/-- Settles O38: the flag `CODE_OK` decides both what comes out and the verdict. -/
theorem beatAtPhase4OfAControlFrame : Obligations.BeatAtPhase4OfAControlFrame := by
  intro d last s hp hd
  rw [exec_beat, beat_eq]
  simp [beatWrites, beatEntry, beatRecords, beatVerdict, hp, bodyByte_control hd, State.bodyVerdict, finishFull, hd,
    Phase.next, doneInvalid]

end Sys2Proof.Machine
end

section
/-! The records of one beat (44_frame_engine.md R114, R115): their kinds in their order, and the ports that show
them. -/

namespace Sys2Proof.Machine

/-! ### The kinds of the records of a beat (R114) -/

/-- The kinds of a beat's records but for `Done`. -/
def beatShapes : List (List RecordKind) := [[], [.hdr], [.hdr, .sse], [.aux], [.body], [.body, .smp]]

theorem bodyByte_kinds (g : BitVec 3) (d : Byte) (s : State) :
    (bodyByte g d s).2.map Record.kind ∈ [[], [.body], [.body, .smp]] := by
  obtain ⟨_, _, e⟩ | ⟨_, _, e⟩ | ⟨_, _, e⟩ | ⟨_, _, e⟩ := bodyByte_cases g d s
  · cases hsmp : (deser g d s.acc s.gidx).1 <;> simp [e, hsmp, Record.kind]
  all_goals simp [e, Record.kind]

theorem headerRecords_kinds (h bw : Half) : (headerRecords h bw).map Record.kind ∈ [[.hdr], [.hdr, .sse]] := by
  cases hbad : sampleSizeError h bw <;> simp [headerRecords, hbad, Record.kind]

theorem beatRecords_kinds (g : BitVec 3) (d : Byte) (s : State) :
    (beatRecords g d s).map Record.kind ∈ beatShapes := by
  cases hp : s.phase with
  | hdr0 => simp [beatRecords, hp, beatShapes]
  | hdr1 =>
    have hsub : ∀ ks ∈ [[RecordKind.hdr], [.hdr, .sse]], ks ∈ beatShapes := by decide
    simpa only [beatRecords, hp] using hsub _ (headerRecords_kinds _ _)
  | aux0 => simp [beatRecords, hp, beatShapes]
  | aux1 => simp [beatRecords, hp, beatShapes, auxRecord, Record.kind]
  | body =>
    have hsub : ∀ ks ∈ [[], [RecordKind.body], [.body, .smp]], ks ∈ beatShapes := by decide
    simpa only [beatRecords, hp] using hsub _ (bodyByte_kinds g d s)

theorem beatEntry_kinds (g : BitVec 3) (d : Byte) (last : Bool) (s : State) :
    (beatEntry g d last s).map Record.kind =
      (beatRecords g d s).map Record.kind ++ if last then [.done] else [] := by
  cases last <;> simp [beatEntry, Record.kind]

/-- The six shapes without `Done`, each from a state of a frame: its first byte, the second byte of a control header
and of a data header under an illegal width, the fourth byte, and a body byte under the widths 16 and 8. -/
theorem beatShapes_occur : ∀ ks ∈ beatShapes, ∃ (d : Byte) (s : State), s.Inv ∧
    (beatRecords (gbytes s.bw) d s).map Record.kind = ks := by
  have hbody : ∀ w : Half, bwOk w = true →
      ({ State.reset with phase := .body, hdr := 0x8000, seqp := true, bw := w } : State).Inv := fun w hw => by
    have hclear := groupFits_clear (gbytes_of_bwOk hw).1
    simpa [State.inv_body, sampleSizeError, isData, hw, State.reset] using hclear
  have hclear : State.reset.GroupClear := ⟨rfl, rfl, rfl, rfl⟩
  simp only [beatShapes, List.forall_mem_cons, List.not_mem_nil, false_imp_iff, implies_true, and_true]
  exact ⟨⟨0x00, State.reset, inv_reset, rfl⟩,
    ⟨0x00, { State.reset with phase := .hdr1 }, ⟨hclear, rfl⟩, rfl⟩,
    ⟨0x80, { State.reset with phase := .hdr1 }, ⟨hclear, rfl⟩, rfl⟩,
    ⟨0x00, { State.reset with phase := .aux1 }, ⟨hclear, rfl⟩, rfl⟩,
    ⟨0x00, _, hbody 16 rfl, rfl⟩, ⟨0x00, _, hbody 8 rfl, rfl⟩⟩

/-- The twelve combinations of R114. -/
def twelveShapes : List (List RecordKind) :=
  [[], [.done], [.hdr], [.hdr, .sse], [.hdr, .done], [.hdr, .sse, .done], [.aux], [.aux, .done], [.body],
    [.body, .smp], [.body, .done], [.body, .smp, .done]]

theorem mem_twelveShapes_iff {ks : List RecordKind} :
    ks ∈ twelveShapes ↔ ∃ shape ∈ beatShapes, ∃ last : Bool, ks = shape ++ if last then [.done] else [] := by
  have hsplit : ∀ ks ∈ twelveShapes, ∃ shape ∈ beatShapes, ∃ last : Bool,
      ks = shape ++ if last then [.done] else [] := by decide
  have hjoin : ∀ shape ∈ beatShapes, ∀ last : Bool,
      (shape ++ if last then [.done] else []) ∈ twelveShapes := by decide
  refine ⟨hsplit ks, ?_⟩
  rintro ⟨shape, hshape, last, rfl⟩
  exact hjoin shape hshape last

/-- No beat emits two records of one kind. -/
theorem beatEntry_kinds_nodup (g : BitVec 3) (d : Byte) (last : Bool) (s : State) :
    ((beatEntry g d last s).map Record.kind).Nodup := by
  have hshapes : ∀ ks ∈ twelveShapes, ks.Nodup := by decide
  exact hshapes _ (mem_twelveShapes_iff.2 ⟨_, beatRecords_kinds g d s, last, beatEntry_kinds g d last s⟩)

/-! ### The ports (R115) -/

/-- Among records of different kinds, the fields read from the records `mk y` of one kind are those of the one record
of that kind. -/
theorem findSome?_eq_some_iff_mem {α : Type} {f : Record → Option α} {mk : α → Record} {rs : List Record}
    (hnodup : (rs.map Record.kind).Nodup) (hf : ∀ r y, f r = some y ↔ r = mk y)
    (hkind : ∀ y y', (mk y).kind = (mk y').kind) (x : α) : rs.findSome? f = some x ↔ mk x ∈ rs := by
  constructor
  · intro h
    obtain ⟨r, hmem, hr⟩ := List.exists_of_findSome?_eq_some h
    exact (hf r x).1 hr ▸ hmem
  · intro h
    induction rs with
    | nil => cases h
    | cons r rs ih =>
      obtain ⟨hnew, hrest⟩ := List.nodup_cons.1 hnodup
      obtain rfl | hin := List.mem_cons.1 h
      · simp [(hf (mk x) x).2 rfl]
      · have hnone : f r = none := Option.eq_none_iff_forall_ne_some.2 fun y hy =>
          hnew (List.mem_map.2 ⟨mk x, hin, by rw [(hf r y).1 hy, hkind]⟩)
        simp [hnone, ih hrest hin]

/-! Each accessor of a record's fields answers for the records of one kind. -/

theorem hdr?_eq_some_iff (r : Record) (x : Tag × Len × Bool) : r.hdr? = some x ↔ r = .hdr x.1 x.2.1 x.2.2 := by
  cases r <;> simp [Record.hdr?, Prod.ext_iff]

theorem aux?_eq_some_iff (r : Record) (x : Bool × Half × Bool) : r.aux? = some x ↔ r = .aux x.1 x.2.1 x.2.2 := by
  cases r <;> simp [Record.aux?, Prod.ext_iff]

theorem body?_eq_some_iff (r : Record) (x : Byte) : r.body? = some x ↔ r = .body x := by
  cases r <;> simp [Record.body?]

theorem smp?_eq_some_iff (r : Record) (x : Sample) : r.smp? = some x ↔ r = .smp x := by
  cases r <;> simp [Record.smp?]

theorem done?_eq_some_iff (r : Record) (x : DoneRecord) : r.done? = some x ↔ r = .done x := by
  cases r <;> simp [Record.done?]

/-! ### The obligations -/

/-- Settles O53: the twelve are the six shapes of a beat, each with and without `Done`. -/
theorem recordsOfABeatAreOneOfTwelve : Obligations.RecordsOfABeatAreOneOfTwelve := by
  refine ⟨fun d last s => ⟨_, _, exec_beat d last s, beat_outputs_eq d last s, ?_⟩, fun ks hks => ?_⟩
  · exact mem_twelveShapes_iff.2 ⟨_, beatRecords_kinds _ d s, last, beatEntry_kinds _ d last s⟩
  · obtain ⟨shape, hshape, last, rfl⟩ := mem_twelveShapes_iff.1 hks
    obtain ⟨d, s, hinv, rfl⟩ := beatShapes_occur shape hshape
    exact ⟨d, last, s, _, _, hinv, exec_beat d last s, beat_outputs_eq d last s, beatEntry_kinds _ d last s⟩

/-- Settles O59: a strobe shows the first record of its kind, and a beat emits no second one. -/
theorem portsShowTheRecordsOfTheBeat : Obligations.PortsShowTheRecordsOfTheBeat := by
  intro d last s
  have hnodup := beatEntry_kinds_nodup (gbytes s.bw) d last s
  exact ⟨_, _, exec_beat d last s, beat_outputs_eq d last s, rfl, rfl,
    fun t len c => findSome?_eq_some_iff_mem hnodup hdr?_eq_some_iff (fun _ _ => rfl) (t, len, c),
    fun q v k => findSome?_eq_some_iff_mem hnodup aux?_eq_some_iff (fun _ _ => rfl) (q, v, k),
    List.contains_iff_mem,
    findSome?_eq_some_iff_mem hnodup body?_eq_some_iff fun _ _ => rfl,
    findSome?_eq_some_iff_mem hnodup smp?_eq_some_iff fun _ _ => rfl,
    findSome?_eq_some_iff_mem hnodup done?_eq_some_iff fun _ _ => rfl⟩

end Sys2Proof.Machine
end

section
/-! What every instruction does, and what of the state it depends on (44_frame_engine.md R102, R103, R113): a register
that the rest of a frame overwrites before it reads it is dead (10_state.md R21). -/

namespace Sys2Proof.Machine

/-! ### Every instruction -/

/-- What an instruction does: a row presents its bytes, as plain beats or cut by the group size of a width. -/
theorem exec_cases (i : Instr) :
    (∃ bytes, ∀ s, exec i s = .next (present bytes s)) ∨
    (∃ g bytes, ∀ s, exec i s = .next (presentWith g bytes s)) ∨ isPortEvent i = true := by
  obtain ⟨m, len, payload, rfl⟩ | ⟨k, parameters, rfl⟩ | ⟨k, body, rfl⟩ | hi := Instr.row_cases i
  · exact .inl ⟨_, exec_messageRow m len payload⟩
  · exact .inl ⟨_, exec_itemRow k parameters⟩
  · exact .inr (.inl ⟨_, _, exec_widthRow k body⟩)
  · exact .inr (.inr hi)

/-- The records of a row of bytes presented as beats, one list for each beat. -/
def presentRecords : List Byte → State → List (List Record)
  | [], _ => []
  | b :: bs, s => beatEntry (gbytes s.bw) b bs.isEmpty s :: presentRecords bs (beat b bs.isEmpty s)

theorem present_outputs (bytes : List Byte) (s : State) :
    (present bytes s).outputs = s.outputs ++ presentRecords bytes s := by
  induction bytes generalizing s with
  | nil => simp [presentRecords]
  | cons b bs ih => rw [present_cons, ih, beat_outputs_eq, presentRecords, List.append_assoc, List.singleton_append]

theorem presentWith_outputs (g : BitVec 3) (bytes : List Byte) (s : State) :
    ∃ new, (presentWith g bytes s).outputs = s.outputs ++ new := by
  induction bytes generalizing s with
  | nil => exact ⟨[], by simp⟩
  | cons b bs ih =>
    obtain ⟨new, hnew⟩ := ih (beatWith g b bs.isEmpty s)
    exact ⟨_, by rw [presentWith_cons, hnew, beatWith_outputs_eq, List.append_assoc]⟩

/-! ### The live registers (10_state.md R21) -/

/-- The registers of a frame in progress, with `h` and `c` for `HDR` and `AUX`, and the other fields cleared: no beat
inside a frame reads these. -/
def State.inFrame (h c : Half) (s : State) : State :=
  { s with cfgBitwidth := 0, hdr := h, aux := c, input := [], outputs := [] }

/-- The state with its dead registers cleared: at `PHASE` = 0 all but `CFG_BITWIDTH`, in a frame the bytes of `HDR` and
`AUX` not yet written. `CFG_BITWIDTH` is cleared too, since only a frame's first beat reads it. -/
def State.live (s : State) : State :=
  match s.phase with
  | .hdr0 => State.reset
  | .hdr1 => s.inFrame (le16 (lowByte s.hdr) 0) 0
  | .aux0 => s.inFrame s.hdr 0
  | .aux1 => s.inFrame s.hdr (le16 (lowByte s.aux) 0)
  | .body => s.inFrame s.hdr s.aux

section
variable (h c : Half) (s : State)

@[simp] theorem State.inFrame_hdr : (s.inFrame h c).hdr = h := rfl
@[simp] theorem State.inFrame_aux : (s.inFrame h c).aux = c := rfl
@[simp] theorem State.inFrame_phase : (s.inFrame h c).phase = s.phase := rfl
@[simp] theorem State.inFrame_sse : (s.inFrame h c).sse = s.sse := rfl
@[simp] theorem State.inFrame_codeOk : (s.inFrame h c).codeOk = s.codeOk := rfl
@[simp] theorem State.inFrame_seqp : (s.inFrame h c).seqp = s.seqp := rfl

end

@[simp] theorem State.live_phase (s : State) : s.live.phase = s.phase := by
  cases hp : s.phase <;> simp [State.live, hp, State.inFrame, State.reset]

theorem State.live_of_hdr0 {s : State} (hp : s.phase = .hdr0) : s.live = State.reset := by simp [State.live, hp]

theorem State.live_bw {s : State} (hp : s.phase ≠ .hdr0) : s.live.bw = s.bw := by
  cases h : s.phase <;> simp [State.live, h, State.inFrame] at hp ⊢

/-- A body byte reads and writes only registers of the frame. -/
theorem bodyByte_inFrame (g : BitVec 3) (d : Byte) (s : State) :
    bodyByte g d (s.inFrame s.hdr s.aux) = ((bodyByte g d s).1.inFrame s.hdr s.aux, (bodyByte g d s).2) := by
  cases hd : isData s.hdr with
  | true =>
    rw [bodyByte_data hd, bodyByte_data (s := s.inFrame s.hdr s.aux) hd]
    by_cases hfull : s.gidx.toNat + 1 = g.toNat <;> cases hs : s.sse <;>
      simp [State.inFrame, State.writeGroup, hs, hfull]
  | false =>
    rw [bodyByte_control hd, bodyByte_control (s := s.inFrame s.hdr s.aux) hd]
    rfl

/-- A beat's records come from live registers. -/
theorem beatEntry_live (g : BitVec 3) (d : Byte) (last : Bool) (s : State) :
    beatEntry g d last s.live = beatEntry g d last s := by
  unfold beatEntry
  cases hp : s.phase with
  | hdr0 => simp [beatRecords, beatVerdict, hp]
  | hdr1 => simp [beatRecords, beatVerdict, State.live, State.inFrame, hp]
  | aux0 => simp [beatRecords, beatVerdict, State.live, State.inFrame, hp]
  | aux1 => simp [beatRecords, beatVerdict, State.live, State.inFrame, State.takeAux, State.bodyVerdict, hp]
  | body =>
    have hlive : s.live = s.inFrame s.hdr s.aux := by simp [State.live, hp]
    simp [beatRecords, beatVerdict, hp, hlive, bodyByte_inFrame, State.bodyVerdict]

/-- What a frame's first beat leaves alive: its own byte and the width it latched. -/
theorem live_beatWith_hdr0 {s : State} (hp : s.phase = .hdr0) (g : BitVec 3) (d : Byte) :
    (beatWith g d false s).live =
      { State.reset with phase := .hdr1, hdr := le16 d 0, bw := s.cfgBitwidth } := by
  rw [beatWith_eq]
  simp [beatWrites, hp, Phase.next, State.live, State.inFrame, State.startFrame, State.reset, Config.cfgReset]

/-- What a later beat leaves alive comes from what was alive before it. -/
theorem live_beatWith {s : State} (hp : s.phase ≠ .hdr0) (g : BitVec 3) (d : Byte) (last : Bool) :
    (beatWith g d last s.live).live = (beatWith g d last s).live := by
  rw [beatWith_eq, beatWith_eq, beatEntry_live]
  cases last with
  | true => rfl
  | false =>
    cases hs : s.phase with
    | hdr0 => exact absurd hs hp
    | hdr1 => simp [hs, Phase.next, State.live, State.inFrame, beatWrites, State.writeHdrHigh, State.raiseSse]
    | aux0 => simp [hs, Phase.next, State.live, State.inFrame, beatWrites, State.writeAuxLow]
    | aux1 => simp [hs, Phase.next, State.live, State.inFrame, beatWrites, State.takeAux]
    | body =>
      have hlive : s.live = s.inFrame s.hdr s.aux := by simp [State.live, hs]
      obtain ⟨a, i, e⟩ := bodyByte_state g d s
      simp only [hlive, beatWrites, hs, State.inFrame_phase, bodyByte_inFrame, e]
      rfl

/-- A first beat emits nothing but the verdict on a one-byte frame, whatever the registers (R104). -/
theorem beatEntry_hdr0 {s : State} (hp : s.phase = .hdr0) (g : BitVec 3) (d : Byte) (last : Bool) :
    beatEntry g d last s = if last then [.done (doneInvalid .invalidShort)] else [] := by
  simp [beatEntry, beatRecords, beatVerdict, hp]

theorem State.phase_eq_of_live {s t : State} (h : s.live = t.live) : s.phase = t.phase := by
  rw [← State.live_phase, h, State.live_phase]

theorem State.bw_eq_of_live {s t : State} (h : s.live = t.live) (hp : s.phase ≠ .hdr0) : s.bw = t.bw := by
  have hp' : t.phase ≠ .hdr0 := State.phase_eq_of_live h ▸ hp
  rw [← State.live_bw hp, h, State.live_bw hp']

/-- Two states with the same live registers give the same records at a beat, and have the same live registers after
it. A frame's first beat reads `CFG_BITWIDTH` besides, and no group size. -/
theorem beatWith_congr {s t : State} (h : s.live = t.live) (hcfg : s.phase = .hdr0 → s.cfgBitwidth = t.cfgBitwidth)
    {g g' : BitVec 3} (hg : s.phase ≠ .hdr0 → g = g') (d : Byte) (last : Bool) :
    beatEntry g d last s = beatEntry g' d last t ∧
      (beatWith g d last s).live = (beatWith g' d last t).live := by
  have hphase := State.phase_eq_of_live h
  by_cases hp : s.phase = .hdr0
  · have hp' : t.phase = .hdr0 := hphase ▸ hp
    refine ⟨by rw [beatEntry_hdr0 hp, beatEntry_hdr0 hp'], ?_⟩
    cases last with
    | true => rw [State.live_of_hdr0 (beatWith_phase g d true s), State.live_of_hdr0 (beatWith_phase g' d true t)]
    | false => rw [live_beatWith_hdr0 hp, live_beatWith_hdr0 hp', hcfg hp]
  · have hp' : t.phase ≠ .hdr0 := hphase ▸ hp
    obtain rfl := hg hp
    exact ⟨by rw [← beatEntry_live, h, beatEntry_live], by rw [← live_beatWith hp, h, live_beatWith hp']⟩

theorem beat_congr {s t : State} (h : s.live = t.live) (hcfg : s.phase = .hdr0 → s.cfgBitwidth = t.cfgBitwidth)
    (d : Byte) (last : Bool) :
    beatEntry (gbytes s.bw) d last s = beatEntry (gbytes t.bw) d last t ∧
      (beat d last s).live = (beat d last t).live :=
  beatWith_congr h hcfg (fun hp => by rw [State.bw_eq_of_live h hp]) d last

/-! ### Two runs of the same instructions (R113) -/

/-- The two states agree on all that any later event can show: `CFG_BITWIDTH` and the live registers. -/
def State.Alike (s t : State) : Prop := s.cfgBitwidth = t.cfgBitwidth ∧ s.live = t.live

/-- From `s` to `s'` and from `t` to `t'` the same records were emitted, and the states reached are alike. -/
def RunAlike (s t s' t' : State) : Prop :=
  s'.Alike t' ∧ ∃ new : List (List Record), s'.outputs = s.outputs ++ new ∧ t'.outputs = t.outputs ++ new

theorem RunAlike.refl {s t : State} (h : s.Alike t) : RunAlike s t s t := ⟨h, [], by simp⟩

theorem RunAlike.trans {s t s' t' s'' t'' : State} (h : RunAlike s t s' t') (h' : RunAlike s' t' s'' t'') :
    RunAlike s t s'' t'' := by
  obtain ⟨_, new, hs, ht⟩ := h
  obtain ⟨halike, new', hs', ht'⟩ := h'
  exact ⟨halike, new ++ new', by rw [hs', hs, List.append_assoc], by rw [ht', ht, List.append_assoc]⟩

theorem beatWith_runAlike {s t : State} (h : s.Alike t) {g g' : BitVec 3} (hg : s.phase ≠ .hdr0 → g = g') (d : Byte)
    (last : Bool) : RunAlike s t (beatWith g d last s) (beatWith g' d last t) := by
  obtain ⟨hcfg, hlive⟩ := h
  obtain ⟨hentry, hafter⟩ := beatWith_congr hlive (fun _ => hcfg) hg d last
  exact ⟨⟨by simpa using hcfg, hafter⟩, _, beatWith_outputs_eq g d last s, by rw [beatWith_outputs_eq, hentry]⟩

theorem beat_runAlike {s t : State} (h : s.Alike t) (d : Byte) (last : Bool) :
    RunAlike s t (beat d last s) (beat d last t) :=
  beatWith_runAlike h (fun hp => by rw [State.bw_eq_of_live h.2 hp]) d last

theorem present_runAlike (bytes : List Byte) {s t : State} (h : s.Alike t) :
    RunAlike s t (present bytes s) (present bytes t) := by
  induction bytes generalizing s t with
  | nil => exact .refl h
  | cons b bs ih =>
    have hbeat := beat_runAlike h b bs.isEmpty
    exact hbeat.trans (ih hbeat.1)

theorem presentWith_runAlike (g : BitVec 3) (bytes : List Byte) {s t : State} (h : s.Alike t) :
    RunAlike s t (presentWith g bytes s) (presentWith g bytes t) := by
  induction bytes generalizing s t with
  | nil => exact .refl h
  | cons b bs ih =>
    have hbeat := beatWith_runAlike h (fun _ => rfl : _ → g = g) b bs.isEmpty
    exact hbeat.trans (ih hbeat.1)

theorem portEvent_runAlike {i : Instr} (hi : isPortEvent i = true) {s t : State} (h : s.Alike t) :
    ∃ s' t', exec i s = .next s' ∧ exec i t = .next t' ∧ RunAlike s t s' t' := by
  obtain rfl | ⟨v, rfl⟩ | ⟨d, last, rfl⟩ | ⟨d, last, v, rfl⟩ | rfl := isPortEvent_cases hi
  · exact ⟨_, _, exec_reset s, exec_reset t, ⟨rfl, rfl⟩, [[]], rfl, rfl⟩
  · exact ⟨_, _, exec_cfgWrite v s, exec_cfgWrite v t, ⟨rfl, h.2⟩, [[]], rfl, rfl⟩
  · exact ⟨_, _, exec_beat d last s, exec_beat d last t, beat_runAlike h d last⟩
  · obtain ⟨⟨_, hlive⟩, new⟩ := beat_runAlike h d last
    exact ⟨_, _, exec_beatCfg d last v s, exec_beatCfg d last v t, ⟨rfl, hlive⟩, new⟩
  · exact ⟨_, _, exec_idle s, exec_idle t, h, [[]], rfl, rfl⟩

theorem exec_runAlike (i : Instr) {s t : State} (h : s.Alike t) :
    ∃ s' t', exec i s = .next s' ∧ exec i t = .next t' ∧ RunAlike s t s' t' := by
  obtain ⟨bytes, he⟩ | ⟨g, bytes, he⟩ | hi := exec_cases i
  · exact ⟨_, _, he s, he t, present_runAlike bytes h⟩
  · exact ⟨_, _, he s, he t, presentWith_runAlike g bytes h⟩
  · exact portEvent_runAlike hi h

theorem runInstrs_runAlike (is : List Instr) {s t : State} (h : s.Alike t) :
    ∃ s' t', runInstrs is s = .next s' ∧ runInstrs is t = .next t' ∧ RunAlike s t s' t' := by
  induction is generalizing s t with
  | nil => exact ⟨s, t, rfl, rfl, .refl h⟩
  | cons i is ih =>
    obtain ⟨s', t', hs, ht, hone⟩ := exec_runAlike i h
    obtain ⟨s'', t'', hs', ht', hrest⟩ := ih hone.1
    exact ⟨s'', t'', by rw [runInstrs_cons hs, hs'], by rw [runInstrs_cons ht, ht'], hone.trans hrest⟩

/-! ### The obligations -/

/-- Settles O58: a row of bytes is beats, and no beat retracts a record, reads the input or writes `CFG_BITWIDTH`. -/
theorem everyInstructionKeepsOutputsAndInput : Obligations.EveryInstructionKeepsOutputsAndInput := by
  intro i s
  obtain ⟨bytes, he⟩ | ⟨g, bytes, he⟩ | hi := exec_cases i
  · exact ⟨_, _, he s, present_outputs bytes s, present_input bytes s, by simp⟩
  · obtain ⟨new, hnew⟩ := presentWith_outputs g bytes s
    exact ⟨_, new, he s, hnew, presentWith_input g bytes s, by simp⟩
  · obtain rfl | ⟨v, rfl⟩ | ⟨d, last, rfl⟩ | ⟨d, last, v, rfl⟩ | rfl := isPortEvent_cases hi
    · exact ⟨_, _, exec_reset s, rfl, rfl, fun _ => .inl rfl⟩
    · exact ⟨_, _, exec_cfgWrite v s, rfl, rfl, fun _ => .inr ⟨v, .inl rfl⟩⟩
    · exact ⟨_, _, exec_beat d last s, beat_outputs_eq d last s, beat_input d last s, by simp⟩
    · exact ⟨_, _, exec_beatCfg d last v s, beat_outputs_eq d last s, beat_input d last s,
        fun _ => .inr ⟨v, .inr ⟨d, last, rfl⟩⟩⟩
    · exact ⟨_, _, exec_idle s, rfl, rfl, by simp⟩

/-- Settles O45: at `PHASE` = 0 no register is live, so two states that agree on `CFG_BITWIDTH` are alike. -/
theorem framesAreIndependentOfHistory : Obligations.FramesAreIndependentOfHistory := by
  intro s₁ s₂ is hp₁ hp₂ hcfg
  have halike : s₁.Alike s₂ := ⟨hcfg, by rw [State.live_of_hdr0 hp₁, State.live_of_hdr0 hp₂]⟩
  obtain ⟨t₁, t₂, hrun₁, hrun₂, ⟨hcfg', hlive'⟩, new, hout₁, hout₂⟩ := runInstrs_runAlike is halike
  exact ⟨t₁, t₂, new, hrun₁, hrun₂, hout₁, hout₂, State.phase_eq_of_live hlive', hcfg'⟩

end Sys2Proof.Machine
end

section
/-! The refinement of the function layer by the engine (44_frame_engine.md R112): the records of a whole frame on both
sides, and that idle and configuration cycles after its first beat change none of them. -/

namespace Sys2Proof.Machine

/-! ### The text of the functions as rows with a verdict -/

/-- A row of records with the verdict at its end, read position by position. -/
theorem closeWith_eq_map_range (v : DoneRecord) (rows : List (List Record)) :
    closeWith v rows = (List.range rows.length).map fun k =>
      rows.getD k [] ++ recordsIf (k + 1 == rows.length) [.done v] := by
  induction rows with
  | nil => rfl
  | cons rs more ih =>
    cases more with
    | nil => rfl
    | cons rs' more =>
      rw [closeWith_cons _ _ _ (List.cons_ne_nil _ _), ih, List.length_cons (a := rs), List.range_succ_eq_map,
        List.map_cons, List.map_map]
      simp [recordsIf, Function.comp_def]

/-- To give a frame's records it is enough to give them at each beat, with the verdict at the last one. -/
theorem frameRecords_eq_closeWith {w : Half} {b : List Byte} {rows : List (List Record)} {v : DoneRecord}
    (hlen : rows.length = b.length)
    (h : ∀ k < b.length, recordsAt w b k = rows.getD k [] ++ recordsIf (k + 1 == b.length) [.done v]) :
    frameRecords w b = closeWith v rows := by
  rw [closeWith_eq_map_range, hlen, frameRecords]
  exact List.map_congr_left fun k hk => h k (List.mem_range.1 hk)

@[simp] theorem headerOf_le16Bytes (h : Half) (rest : List Byte) : headerOf (le16Bytes h ++ rest) = h := by
  simp [headerOf, le16Bytes]

/-- From two bytes on the class of the header decides which text is read. -/
theorem recordsAt_le16Bytes (w h : Half) (rest : List Byte) (k : Nat) :
    recordsAt w (le16Bytes h ++ rest) k =
      if isData h then dataRecordsAt w (le16Bytes h ++ rest) k else controlRecordsAt (le16Bytes h ++ rest) k := by
  have hlen : (le16Bytes h ++ rest).length ≠ 1 := by simp [le16Bytes]
  rw [recordsAt, if_neg hlen, headerOf_le16Bytes, isData_eq_typeOf]
  rfl

/-- A frame of two or three bytes: no function gives it an `Aux` record, and the class decides the verdict. -/
theorem frameRecords_short (w h : Half) {rest : List Byte} (hr : rest.length < 2) :
    frameRecords w (le16Bytes h ++ rest) =
      closeWith (finishEarly h (sampleSizeError h w)) ([[], headerRecords h w] ++ rest.map fun _ => []) := by
  refine frameRecords_eq_closeWith (by simp [le16Bytes]) fun k hk => ?_
  have hk3 : k < 3 := by simp [le16Bytes] at hk; omega
  rw [recordsAt_le16Bytes]
  cases hd : isData h with
  | false =>
    have hshort : (le16Bytes h ++ rest).length < 4 := by simp [le16Bytes]; omega
    simp only [controlRecordsAt, parseControl_of_length_lt hshort, headerOf_le16Bytes, headerRecords_control hd,
      finishEarly_control hd]
    interval_cases k <;> simp [recordsIf, unpack]
  | true =>
    simp only [dataRecordsAt, parseData_header hr, headerOf_le16Bytes, headerRecords_data hd, finishEarly_data hd,
      sampleSizeError_data hd]
    cases hw : bwOk w <;> interval_cases k <;> simp [recordsIf, unpack, extract, hw]

/-- A control-class frame of four bytes or more: with a known code its bytes from offset 4 on come out. -/
theorem frameRecords_control {h : Half} (hd : isData h = false) (w c : Half) (body : List Byte) :
    frameRecords w (le16Bytes h ++ (le16Bytes c ++ body)) = closeWith (controlVerdict h c)
      ([[], headerRecords h w, [], [.aux false c (knownCode c)]] ++
        body.map fun d => if knownCode c then [.body d] else []) := by
  refine frameRecords_eq_closeWith (by simp [le16Bytes]) fun k hk => ?_
  have hcode : le16 ((le16Bytes h ++ (le16Bytes c ++ body)).getD 2 0)
      ((le16Bytes h ++ (le16Bytes c ++ body)).getD 3 0) = c := by simp [le16Bytes]
  rw [recordsAt_le16Bytes, hd, headerRecords_control hd]
  simp only [controlRecordsAt, parseControl_le16Bytes, headerOf_le16Bytes, hcode, controlVerdict]
  match k with
  | 0 | 1 | 2 | 3 => cases knownCode c <;> simp [recordsIf, doneControl, unpack]
  | j + 4 =>
    have hj : j < body.length := by simp [le16Bytes] at hk; omega
    cases knownCode c <;> simp [recordsIf, doneControl, unpack, hj]

/-- The sample that `EXTRACT` gives for the group ending at body byte `j`, if one ends there. -/
theorem sampleEndingAt_eq {w : Half} {body : List Byte} {samples : List Sample} (hw : bwOk w = true)
    (h : extract w body = .ok samples) {j : Nat} (hj : j < body.length) :
    sampleEndingAt (w.toNat / 8) samples j = samplesAtByte (w.toNat / 8) body j := by
  rw [extract_of_bwOk hw, Except.ok.injEq] at h
  subst h
  rw [samplesAtByte_eq_sampleAt, sampleEndingAt]
  split_ifs with hend
  · have hdvd : w.toNat / 8 ∣ j + 1 := Nat.dvd_of_mod_eq_zero hend
    have hlt : j / (w.toNat / 8) < body.length / (w.toNat / 8) := by
      rw [Nat.lt_iff_add_one_le, ← Nat.succ_div_of_dvd hdvd]
      exact Nat.div_le_div_right hj
    simp [hlt]
  · rfl

/-- A data-class frame of four bytes or more: its bytes from offset 4 on come out, with the samples of `EXTRACT`. -/
theorem frameRecords_data {h : Half} (hd : isData h = true) (w c : Half) (body : List Byte) :
    frameRecords w (le16Bytes h ++ (le16Bytes c ++ body)) = closeWith
      { status := .ok, isData := true, type := typeOf h, length := lengthOf h, item := 0x0000, seq := c
        seqPresent := true, sse := !bwOk w }
      ([[], headerRecords h w, [], [.aux true c true]] ++ bodyRecords w body) := by
  refine frameRecords_eq_closeWith (by simp [le16Bytes, bodyRecords]) fun k hk => ?_
  rw [recordsAt_le16Bytes, hd, headerRecords_data hd]
  simp only [dataRecordsAt, parseData_le16Bytes, headerOf_le16Bytes]
  match k with
  | 0 | 1 | 2 | 3 => cases hw : bwOk w <;> simp [recordsIf, unpack, extract, hw]
  | j + 4 =>
    have hj : j < body.length := by simp [le16Bytes] at hk; omega
    cases hw : bwOk w with
    | false => simp [recordsIf, unpack, extract, hw, hj, bodyRecords]
    | true =>
      have hextract := extract_of_bwOk hw body
      simp [recordsIf, unpack, hextract, hj, bodyRecords, hw, sampleEndingAt_eq hw hextract hj]

/-! ### The engine's records of a whole frame -/

theorem presentRecords_eq {bytes : List Byte} {s : State} {new : List (List Record)}
    (h : (present bytes s).outputs = s.outputs ++ new) : presentRecords bytes s = new :=
  List.append_cancel_left ((present_outputs bytes s).symm.trans h)

theorem presentRecords_short {s : State} (hp : s.phase = .hdr0) (h : Half) {rest : List Byte} (hr : rest.length < 2) :
    presentRecords (le16Bytes h ++ rest) s =
      closeWith (finishEarly h (sampleSizeError h s.cfgBitwidth))
        ([[], headerRecords h s.cfgBitwidth] ++ rest.map fun _ => []) := by
  refine presentRecords_eq ?_
  match rest, hr with
  | [], _ =>
    rw [List.append_nil, present_header_last hp]
    simp [State.takeHeader, closeWith]
  | [x], _ =>
    rw [present_header hp h (by simp), present_auxByte_last rfl]
    simp [State.afterHeader, State.takeHeader, closeWith]

theorem presentRecords_control {s : State} (hp : s.phase = .hdr0) {h : Half} (hd : isData h = false) (c : Half)
    (body : List Byte) :
    presentRecords (le16Bytes h ++ (le16Bytes c ++ body)) s = closeWith (controlVerdict h c)
      ([[], headerRecords h s.cfgBitwidth, [], [.aux false c (knownCode c)]] ++
        body.map fun d => if knownCode c then [.body d] else []) := by
  refine presentRecords_eq ?_
  rw [present_header hp h (by simp [le16Bytes]), present_controlAux (s := s.afterHeader h) rfl hd]
  simp [State.afterHeader, State.takeHeader, closeWith]

/-- R112 for the beats of a frame alone. -/
theorem presentRecords_eq_frameRecords {s : State} (hp : s.phase = .hdr0) {b : List Byte} (hb : b ≠ []) :
    presentRecords b s = frameRecords s.cfgBitwidth b := by
  match b, hb with
  | [d], _ => simp [presentRecords, beatEntry_hdr0 hp, frameRecords, recordsAt, recordsIf]
  | [b0, b1], _ =>
    rw [← le16Bytes_le16_append b0 b1 [], presentRecords_short hp _ (by simp), frameRecords_short _ _ (by simp)]
  | [b0, b1, b2], _ =>
    rw [← le16Bytes_le16_append b0 b1 [b2], presentRecords_short hp _ (by simp), frameRecords_short _ _ (by simp)]
  | b0 :: b1 :: b2 :: b3 :: body, _ =>
    rw [← le16Bytes_le16_append b0 b1, ← le16Bytes_le16_append b2 b3]
    cases hd : isData (le16 b0 b1) with
    | false => rw [presentRecords_control hp hd, frameRecords_control hd]
    | true =>
      rw [frameRecords_data hd]
      exact presentRecords_eq (by rw [present_dataFrame hp hd])

/-! ### Beats among other events (R102, R111) -/

theorem beatsOf_singleton_cases (i : Instr) : beatsOf [i] = [] ∨ ∃ d last, beatsOf [i] = [(d, last)] := by
  cases i with
  | beat d last => exact .inr ⟨d, last, rfl⟩
  | beatCfg d last v => exact .inr ⟨d, last, rfl⟩
  | _ => exact .inl rfl

theorem beatsOf_cons (i : Instr) (is : List Instr) : beatsOf (i :: is) = beatsOf [i] ++ beatsOf is := by
  cases i <;> rfl

theorem lastCfg_cons (w : Half) (i : Instr) (is : List Instr) : lastCfg w (i :: is) = lastCfg (lastCfg w [i]) is := by
  cases i <;> rfl

theorem spread_cons_of_no_beat {i : Instr} (hi : beatsOf [i] = []) (is : List Instr) (rss : List (List Record)) :
    spread (i :: is) rss = [] :: spread is rss := by
  cases i with
  | beat d last => cases hi
  | beatCfg d last v => cases hi
  | _ => rfl

theorem spread_cons_of_beat {i : Instr} {x : Byte × Bool} (hi : beatsOf [i] = [x]) (is : List Instr) (rs : List Record)
    (rss : List (List Record)) : spread (i :: is) (rs :: rss) = rs :: spread is rss := by
  cases i with
  | beat d last => rfl
  | beatCfg d last v => rfl
  | _ => cases hi

theorem framed_eq_cons {bytes : List Byte} {d : Byte} {last : Bool} {more : List (Byte × Bool)}
    (h : (d, last) :: more = framed bytes) : ∃ bs, bytes = d :: bs ∧ last = bs.isEmpty ∧ more = framed bs := by
  match bytes, h with
  | b :: bs, h =>
    obtain ⟨⟨rfl, rfl⟩, rfl⟩ : (d = b ∧ last = bs.isEmpty) ∧ more = framed bs := by simpa [framed] using h
    exact ⟨bs, rfl, rfl, rfl⟩

/-- An event without a beat, `RESET` excepted: an empty entry, and no live register is touched. -/
theorem exec_of_no_beat {i : Instr} (hi : isPortEvent i = true) (hreset : i ≠ .reset) (hbeat : beatsOf [i] = [])
    (s : State) : ∃ s', exec i s = .next s' ∧ s'.outputs = s.outputs ++ [[]] ∧ s'.live = s.live ∧
      s'.cfgBitwidth = lastCfg s.cfgBitwidth [i] := by
  obtain rfl | ⟨v, rfl⟩ | ⟨d, last, rfl⟩ | ⟨d, last, v, rfl⟩ | rfl := isPortEvent_cases hi
  · exact absurd rfl hreset
  · exact ⟨_, exec_cfgWrite v s, rfl, rfl, rfl⟩
  · cases hbeat
  · cases hbeat
  · exact ⟨_, exec_idle s, rfl, rfl, rfl⟩

/-- An event with a beat, with a configuration write or without: the beat's entry and the beat's live registers. -/
theorem exec_of_beat {i : Instr} {d : Byte} {last : Bool} (hbeat : beatsOf [i] = [(d, last)]) (s : State) :
    ∃ s', exec i s = .next s' ∧ s'.outputs = s.outputs ++ [beatEntry (gbytes s.bw) d last s] ∧
      s'.live = (beat d last s).live ∧ s'.cfgBitwidth = lastCfg s.cfgBitwidth [i] := by
  cases i with
  | beat d' last' =>
    cases hbeat
    exact ⟨_, exec_beat d last s, beat_outputs_eq d last s, rfl, beat_cfgBitwidth d last s⟩
  | beatCfg d' last' v =>
    cases hbeat
    exact ⟨_, exec_beatCfg d last v s, beat_outputs_eq d last s, rfl, rfl⟩
  | _ => cases hbeat

/-- While bytes of the frame are left, the next beat is none of its first. -/
theorem beat_phase_ne_hdr0 {bs : List Byte} (hbs : bs ≠ []) (d : Byte) (s : State) :
    (beat d bs.isEmpty s).phase ≠ .hdr0 := by
  rw [beat_phase, List.isEmpty_eq_false_iff.2 hbs]
  cases s.phase <;> simp [Phase.next]

/-- The bytes `bs` of a frame as beats among any other events: the records are those of the beats alone, from a state
`t` with the same live registers. Only a frame's first beat reads `CFG_BITWIDTH`, so no other event comes before it. -/
theorem runInstrs_frame (is : List Instr) {s t : State} {bs : List Byte} (hlive : s.live = t.live)
    (hports : ∀ i ∈ is, isPortEvent i = true ∧ i ≠ .reset) (hbeats : beatsOf is = framed bs)
    (hstart : bs ≠ [] → t.phase = .hdr0 → s.cfgBitwidth = t.cfgBitwidth ∧ beatsOf (is.take 1) ≠ []) :
    ∃ u, runInstrs is s = .next u ∧ u.outputs = s.outputs ++ spread is (presentRecords bs t) ∧
      u.phase = (present bs t).phase ∧ u.cfgBitwidth = lastCfg s.cfgBitwidth is := by
  induction is generalizing s t bs with
  | nil =>
    match bs, hbeats with
    | [], _ => exact ⟨s, rfl, by simp [spread], State.phase_eq_of_live hlive, rfl⟩
  | cons i is ih =>
    obtain ⟨⟨hport, hreset⟩, hports⟩ := List.forall_mem_cons.1 hports
    rw [beatsOf_cons] at hbeats
    obtain hbeat | ⟨d, last, hbeat⟩ := beatsOf_singleton_cases i
    · obtain ⟨s', he, hout, hlive', hcfg⟩ := exec_of_no_beat hport hreset hbeat s
      obtain ⟨u, hu, huout, hphase, hucfg⟩ := ih (hlive'.trans hlive) hports (by rwa [hbeat] at hbeats)
        fun hbs hp => absurd hbeat (hstart hbs hp).2
      refine ⟨u, by rw [runInstrs_cons he, hu], ?_, hphase, by rw [hucfg, hcfg, ← lastCfg_cons]⟩
      rw [huout, hout, spread_cons_of_no_beat hbeat, List.append_assoc, List.singleton_append]
    · rw [hbeat] at hbeats
      obtain ⟨bs, rfl, rfl, hrest⟩ := framed_eq_cons hbeats
      have hwidth : s.phase = .hdr0 → s.cfgBitwidth = t.cfgBitwidth := fun hp =>
        (hstart (by simp) (State.phase_eq_of_live hlive ▸ hp)).1
      obtain ⟨hentry, hafter⟩ := beat_congr hlive hwidth d bs.isEmpty
      obtain ⟨s', he, hout, hlive', hcfg⟩ := exec_of_beat hbeat s
      obtain ⟨u, hu, huout, hphase, hucfg⟩ := ih (hlive'.trans hafter) hports hrest
        fun hbs hp => absurd hp (beat_phase_ne_hdr0 hbs d t)
      refine ⟨u, by rw [runInstrs_cons he, hu], ?_, hphase, by rw [hucfg, hcfg, ← lastCfg_cons]⟩
      rw [huout, hout, hentry, presentRecords, spread_cons_of_beat hbeat, List.append_assoc, List.singleton_append]

/-! ### The obligation -/

/-- Settles O44: the other events after the first beat change none of the beats' records, and the beats alone give what
the functions give. -/
theorem engineRefinesTheFunctions : Obligations.EngineRefinesTheFunctions := by
  intro s b first rest hp hb hports hfirst hbeats
  obtain ⟨t, ht, hout, hphase, hcfg⟩ :=
    runInstrs_frame (first :: rest) (s := s) rfl hports hbeats fun _ _ => ⟨rfl, hfirst⟩
  rw [presentRecords_eq_frameRecords hp hb] at hout
  exact ⟨t, ht, hout, by rw [hphase, present_phase hb], hcfg⟩

end Sys2Proof.Machine
end

section
/-! What the conditions do to a run, to a verdict and to the samples (60_exceptions.md): none stops the machine, the
verdicts exclude each other, and no sample comes out under an illegal width. -/

namespace Sys2Proof.Machine

/-! ### Nothing stops the machine (R137, R138) -/

/-- Every instruction has a next state, so every step has one. -/
theorem step_total (s : State) : ∃ t, step s = .next t := by
  obtain ⟨t, _, he, _⟩ := everyInstructionKeepsOutputsAndInput (fetch s).1 (s.withInput (fetch s).2)
  exact ⟨t, he⟩

/-- A machine whose every step has a next state runs any number of steps. -/
theorem run_total {M : Host.Core} (hstep : ∀ s, ∃ t, M.step s = .next t) (n : Nat) (s : M.State) :
    ∃ t, M.run n s = .next t := by
  induction n generalizing s with
  | zero => exact ⟨s, rfl⟩
  | succ n ih =>
    obtain ⟨s', hs'⟩ := hstep s
    obtain ⟨t, ht⟩ := ih s'
    exact ⟨t, by simpa only [Host.Core.run, hs'] using ht⟩

/-! ### The verdicts (R131, R132, R136) -/

/-- `sse` only with a valid data frame, and nothing but the status from a frame that is not valid. -/
def DoneRecord.Exclusive (v : DoneRecord) : Prop :=
  (v.sse = true → v.status = .ok ∧ v.isData = true) ∧ (v.status ≠ .ok → v = doneInvalid v.status)

theorem exclusive_doneInvalid (st : Status) : (doneInvalid st).Exclusive :=
  ⟨fun hsse => Bool.noConfusion hsse, fun _ => rfl⟩

theorem exclusive_finishFull (h a : Half) (seqp codeOk sse : Bool) : (finishFull h a seqp codeOk sse).Exclusive := by
  obtain ⟨_, hok, hdata, _⟩ | ⟨_, _, hok, _, hsse⟩ | ⟨_, _, e⟩ := finishFull_cases h a seqp codeOk sse
  · exact ⟨fun _ => ⟨hok, hdata⟩, fun hbad => absurd hok hbad⟩
  · exact ⟨fun h1 => absurd h1 (by simp [hsse]), fun hbad => absurd hok hbad⟩
  · rw [e]
    exact exclusive_doneInvalid _

theorem exclusive_finishEarly (h : Half) (sse : Bool) : (finishEarly h sse).Exclusive := by
  obtain ⟨_, e⟩ | ⟨_, e⟩ := finishEarly_cases h sse <;> rw [e]
  · exact exclusive_finishFull _ _ _ _ _
  · exact exclusive_doneInvalid _

theorem exclusive_beatVerdict (d : Byte) (s : State) : (beatVerdict d s).Exclusive := by
  unfold beatVerdict
  cases s.phase with
  | hdr0 => exact exclusive_doneInvalid _
  | hdr1 => exact exclusive_finishEarly _ _
  | aux0 => exact exclusive_finishEarly _ _
  | aux1 => exact exclusive_finishFull _ _ _ _ _
  | body => exact exclusive_finishFull _ _ _ _ _

theorem done_not_mem_beatRecords (v : DoneRecord) (g : BitVec 3) (d : Byte) (s : State) :
    Record.done v ∉ beatRecords g d s := fun hmem => by
  have hshapes : ∀ ks ∈ beatShapes, RecordKind.done ∉ ks := by decide
  exact hshapes _ (beatRecords_kinds g d s) (List.mem_map_of_mem (f := Record.kind) hmem)

theorem done_mem_beatEntry_iff (v : DoneRecord) (g : BitVec 3) (d : Byte) (last : Bool) (s : State) :
    Record.done v ∈ beatEntry g d last s ↔ last = true ∧ v = beatVerdict d s := by
  cases last <;> simp [beatEntry, done_not_mem_beatRecords]

/-! ### The samples (R133) -/

theorem smp_mem_beatEntry_iff (v : Sample) (g : BitVec 3) (d : Byte) (last : Bool) (s : State) :
    Record.smp v ∈ beatEntry g d last s ↔ Record.smp v ∈ beatRecords g d s := by
  cases last <;> simp [beatEntry]

theorem smp_not_mem_headerRecords (v : Sample) (h bw : Half) : Record.smp v ∉ headerRecords h bw := fun hmem => by
  have hkinds : ∀ ks ∈ [[RecordKind.hdr], [.hdr, .sse]], RecordKind.smp ∉ ks := by decide
  exact hkinds _ (headerRecords_kinds h bw) (List.mem_map_of_mem (f := Record.kind) hmem)

/-- Only the deserializer gives a sample, and only a data frame with `SSE` = 0 reaches it. -/
theorem smp_mem_bodyByte {v : Sample} {g : BitVec 3} {d : Byte} {s : State} (h : Record.smp v ∈ (bodyByte g d s).2) :
    isData s.hdr = true ∧ s.sse = false := by
  obtain ⟨hd, hs, _⟩ | ⟨_, _, e⟩ | ⟨_, _, e⟩ | ⟨_, _, e⟩ := bodyByte_cases g d s
  · exact ⟨hd, hs⟩
  all_goals simp [e] at h

theorem smp_mem_beatRecords {v : Sample} {g : BitVec 3} {d : Byte} {s : State}
    (h : Record.smp v ∈ beatRecords g d s) : s.phase = .body ∧ isData s.hdr = true ∧ s.sse = false := by
  unfold beatRecords at h
  cases hp : s.phase with
  | hdr0 => simp [hp] at h
  | hdr1 => exact absurd (by simpa only [hp] using h) (smp_not_mem_headerRecords v _ _)
  | aux0 => simp [hp] at h
  | aux1 => simp [hp, auxRecord] at h
  | body => exact ⟨rfl, smp_mem_bodyByte (by simpa only [hp] using h)⟩

/-! ### The obligations -/

/-- Settles O51: every step has a next state, and so every run. -/
theorem everyStateIsSafe : Obligations.EveryStateIsSafe := fun s n => run_total (M := core) step_total n s

/-- Settles O54: the one `Done` of a beat is its verdict, and every verdict is exclusive. -/
theorem verdictsAreExclusive : Obligations.VerdictsAreExclusive := by
  refine fun d last s => ⟨_, _, exec_beat d last s, beat_outputs_eq d last s, fun v hv => ?_⟩
  obtain ⟨_, rfl⟩ := (done_mem_beatEntry_iff v _ d last s).1 hv
  exact exclusive_beatVerdict d s

/-- Settles O55: a sample comes from the body of a data frame with `SSE` = 0, where the invariant has the width legal
(R25 (b)). -/
theorem samplesNeedALegalWidth : Obligations.SamplesNeedALegalWidth := by
  refine fun d last s hinv => ⟨_, _, exec_beat d last s, beat_outputs_eq d last s, fun v hv => ?_⟩
  obtain ⟨hp, hd, hs⟩ := smp_mem_beatRecords ((smp_mem_beatEntry_iff v _ d last s).1 hv)
  obtain ⟨hwidth, _⟩ := State.meetsR25_of_inv hinv
  exact ⟨hp, hd, bwOk_cases (hwidth hp hd hs).1⟩

end Sys2Proof.Machine
end

section
/-! The end of a frame and what can stand in its way (70_reset_and_hazards.md): `RESET` in a frame, a missing `last`,
and the wait for the next beat. -/

namespace Sys2Proof.Machine

/-! ### `RESET`, and the beat after it (R150, R151) -/

theorem runInstrs_reset_beat (d : Byte) (last : Bool) (s : State) :
    runInstrs [.reset, .beat d last] s = .next (beat d last (s.clearRegisters.emit [])) := by
  rw [runInstrs_cons (exec_reset s), runInstrs_cons (exec_beat d last _), runInstrs]

/-- A frame's first beat writes the low byte of the header (44_frame_engine.md R104). -/
theorem lowByte_hdr_beat_of_hdr0 {s : State} (hp : s.phase = .hdr0) (d : Byte) (last : Bool) :
    lowByte (beat d last s).hdr = d := by
  rw [beat_eq]
  simp [beatWrites, hp, State.startFrame]

/-! ### The one `Done` of a frame (44_frame_engine.md R103) -/

theorem Record.kind_eq_done_iff (r : Record) : r.kind = .done ↔ ∃ v, r = .done v := by
  cases r <;> simp [Record.kind]

theorem kind_ne_done_of_mem_beatRecords {r : Record} {g : BitVec 3} {d : Byte} {s : State}
    (h : r ∈ beatRecords g d s) : r.kind ≠ .done := fun hkind => by
  obtain ⟨v, rfl⟩ := r.kind_eq_done_iff.1 hkind
  exact done_not_mem_beatRecords v g d s h

theorem beatEntry_last (g : BitVec 3) (d : Byte) (s : State) :
    beatEntry g d true s = beatRecords g d s ++ [.done (beatVerdict d s)] := by simp [beatEntry]

theorem beatEntry_not_last (g : BitVec 3) (d : Byte) (s : State) :
    beatEntry g d false s = beatRecords g d s := by simp [beatEntry]

theorem Phase.next_ne_hdr0 (p : Phase) : p.next ≠ .hdr0 := by cases p <;> simp [Phase.next]

/-! ### A message in the body of another frame (R153) -/

/-- The body of a control-class frame whose code is known: every byte comes out, and the verdict is the frame's own. -/
theorem present_knownBody {body : List Byte} (hb : body ≠ []) {s : State} (hp : s.phase = .body)
    (hd : isData s.hdr = false) (hc : s.codeOk = true) :
    present body s = { s with
      phase := .hdr0
      outputs := s.outputs ++ closeWith (doneControl s.hdr s.aux) (body.map fun d => [.body d]) } := by
  rw [present_controlBody body hb s hp hd, hc, finishFull_control hd]
  simp

/-- The eight message rows are the four of control class and the four of data class. -/
theorem message_cases {len : Len} {payload : List Byte} {i : Instr} {t : Tag}
    (h : (i, t) ∈ [(.setControlItem len payload, 0), (.currentControlItem len payload, 1),
      (.controlItemRange len payload, 2), (.ack len payload, 3), (.dataItem0 len payload, 4),
      (.dataItem1 len payload, 5), (.dataItem2 len payload, 6), (.dataItem3 len payload, 7)]) :
    ∃ m : MessageType, i = m.row len payload ∧ t = m.tag := by
  obtain hcontrol | hdata := (List.mem_append (s := [_, _, _, _])).1 h
  · obtain ⟨m, hi, ht, _⟩ := controlMessage_cases hcontrol
    exact ⟨m, hi, ht⟩
  · obtain ⟨m, hi, ht, _⟩ := dataMessage_cases hdata
    exact ⟨m, hi, ht⟩

/-! ### A machine with nothing offered (R159) -/

theorem run_succ_of_step {M : Host.Core} {s s' : M.State} (h : M.step s = .next s') (n : Nat) :
    M.run (n + 1) s = M.run n s' := by
  simp only [Host.Core.run, h]

/-! ### The obligations -/

/-- Settles O46: the second message's two header bytes and its payload are one row of body bytes, and a body byte
changes nothing that the first frame's verdict reads. -/
theorem missingLastJoinsTwoMessages : Obligations.MissingLastJoinsTwoMessages := by
  intro len payload s hp hd hc i t hi
  obtain ⟨m, rfl, rfl⟩ := message_cases hi
  have hbytes : messageBytes m len payload = lowByte (pack m.tag len) :: highByte (pack m.tag len) :: payload := rfl
  rw [exec_messageRow, hbytes, present_knownBody (List.cons_ne_nil _ _) hp hd hc]
  rfl

/-- Settles O52: `last` decides whether the beat's own records, none of them a `Done`, are followed by the verdict. -/
theorem lastBeatGivesExactlyOneDone : Obligations.LastBeatGivesExactlyOneDone := by
  intro d last s
  refine ⟨_, _, exec_beat d last s, beat_outputs_eq d last s, ?_, ?_⟩
  · rintro rfl
    exact ⟨beat_phase d true s, _, _, beatEntry_last _ d s, fun _ => kind_ne_done_of_mem_beatRecords⟩
  · rintro rfl
    rw [beatEntry_not_last, beat_phase]
    exact ⟨s.phase.next_ne_hdr0, fun _ => kind_ne_done_of_mem_beatRecords⟩

/-- Settles O56, by induction on the number of steps: each is an `IDLE` cycle, which leaves nothing offered. -/
theorem idleMachineWaitsForEver : Obligations.IdleMachineWaitsForEver := by
  intro n s hinput
  induction n generalizing s with
  | zero => simp [Host.Core.run]
  | succ n ih =>
    have hstep : core.step s = .next (s.emit []) := (step_idle hinput).trans (exec_idle s)
    rw [run_succ_of_step hstep, ih (s.emit []) hinput]
    simp [State.emit, List.replicate_succ]

/-- Settles O27: the cleared registers with an empty entry; the reset pin alone selects `RESET`. -/
theorem resetZeroesEveryRegister : Obligations.ResetZeroesEveryRegister := fun s =>
  ⟨exec_reset s, fun _ _ hinput hrst => by rw [step_cycle hinput, decodePins_of_rst hrst]⟩

/-- Settles O32: after `RESET` the engine is at `PHASE` 0, so the beat is a frame's first. -/
theorem resetAbandonsTheFrame : Obligations.ResetAbandonsTheFrame := by
  intro s d last
  have hphase : (s.clearRegisters.emit []).phase = .hdr0 := rfl
  refine ⟨_, runInstrs_reset_beat d last s, ?_, beat_phase d last _, lowByte_hdr_beat_of_hdr0 hphase d last⟩
  rw [beat_outputs_eq, beatEntry_hdr0 hphase]
  simp

end Sys2Proof.Machine
end

section
/-! A message or an item code as the beats of its bytes, wherever it is executed (30_encoding.md R58, log entries 4
and 5): the row is known from its encoding alone, and its meaning presents the encoded bytes. -/

namespace Sys2Proof.Machine

/-- A port event is one clock cycle's pins and no row of bytes (30_encoding.md R56). -/
theorem encode_portEvent {i : Instr} (h : isPortEvent i = true) : ∃ p, encode i = .pins p := by
  obtain rfl | ⟨v, rfl⟩ | ⟨d, last, rfl⟩ | ⟨d, last, v, rfl⟩ | rfl := isPortEvent_cases h <;> exact ⟨_, rfl⟩

/-- What is encoded as a frame or from an item code on presents exactly the encoded bytes, in every state; of the
widths this holds only in their place. -/
theorem exec_of_encode {i : Instr} {bytes : List Byte} (h : encode i = .frame bytes ∨ encode i = .item bytes)
    (s : State) : exec i s = .next (present bytes s) := by
  obtain ⟨m, len, payload, rfl⟩ | ⟨k, parameters, rfl⟩ | ⟨k, body, rfl⟩ | hport := i.row_cases
  · obtain rfl : messageBytes m len payload = bytes := by simpa using h
    exact exec_messageRow m len payload s
  · obtain rfl : itemBytes k parameters = bytes := by simpa using h
    exact exec_itemRow k parameters s
  · simp at h
  · obtain ⟨p, hp⟩ := encode_portEvent hport
    simp [hp] at h

/-! ### The obligation -/

/-- Settles O9: the row presents its encoded bytes, and so do the beats one after another. -/
theorem messagesAndItemsAreTheirBeats : Obligations.MessagesAndItemsAreTheirBeats := fun i s bytes h =>
  calc exec i s = .next (present bytes s) := exec_of_encode h s
    _ = _ := (runInstrs_framed bytes s).symm

end Sys2Proof.Machine
end
